-- ==== Sys2Proof/Word.lean ====
section
/-! DEFINITION. The word types of the Quantizer-Packer (QP): what the spec treats as bits, with the
widths of spec/10_state.md R22-R23, spec/20_memory.md R50 and spec/30_encoding.md R70-R85. -/

namespace Sys2Proof

/-- A command word on the 64-bit command port (R70). -/
abbrev CommandWord := BitVec 64

/-- The 32-bit response register and fault information (R22). -/
abbrev Word32 := BitVec 32

/-- One 8-bit channel of an input pixel (R82). -/
abbrev Channel := BitVec 8

/-- A Quantized Color packed as R, G, B nibbles, R uppermost (R23, R83). -/
abbrev Color := BitVec 12

/-- A palette word: four zero bits above a Quantized Color (R84). -/
abbrev PaletteWord := BitVec 16

/-- A palette index, one cell of the index RAM (R33, R50). -/
abbrev PaletteIndex := BitVec 4

/-- One byte of the bitplane RAM or of an output artifact (R50, R163). -/
abbrev Byte := BitVec 8

end Sys2Proof
end

