-- ==== Sys2Proof/Syntax.lean ====
section
/-! DEFINITION. The commands of the QP: one constructor per row of spec/opcode_table.json. Every operand is
an unsigned immediate of exactly its field's width (spec/30_encoding.md R71, R73-R78), so a term of
`Instr` can hold no operand outside its field. -/

namespace Sys2Proof

/-- The nine commands (R72). -/
inductive Instr where
  /-- BEGIN, format WH (R73): width and height of a new image. -/
  | begin (w h : BitVec 16)
  /-- PIXEL, format RGBA (R74): the next pixel; no rule reads the alpha channel (R101). -/
  | pixel (r g b a : Channel)
  /-- ENCODE, format Z (R75). -/
  | encode
  /-- RDPAL, format I4 (R76): a palette index. -/
  | rdpal (i : PaletteIndex)
  /-- RDIDX, format XY (R77): a column and a row. -/
  | rdidx (x y : BitVec 16)
  /-- RDBPL, format OFF (R78): a byte offset into the bitplane RAM. -/
  | rdbpl (off : Word32)
  /-- RDSTAT, format Z (R75). -/
  | rdstat
  /-- RDFINFO, format Z (R75). -/
  | rdfinfo
  /-- SRST, format Z (R75). -/
  | srst
deriving DecidableEq, Repr

/-- The mnemonic of a command, as spec/opcode_table.json spells it. -/
def Instr.mnemonic : Instr → String
  | .begin _ _ => "BEGIN"
  | .pixel _ _ _ _ => "PIXEL"
  | .encode => "ENCODE"
  | .rdpal _ => "RDPAL"
  | .rdidx _ _ => "RDIDX"
  | .rdbpl _ => "RDBPL"
  | .rdstat => "RDSTAT"
  | .rdfinfo => "RDFINFO"
  | .srst => "SRST"

end Sys2Proof
end

