-- ==== Sys2Proof/WellFormed.lean ====
section
/-! DEFINITION. Well-formedness. An `Instr` term is well formed by construction: each operand has exactly its
field's width (spec/30_encoding.md R73-R78), so there is nothing left to check on it. What can be ill formed
is a command word: R79 calls a word legal exactly when `(word & mask) = match` for one row of its table. This
file is that table, independent of the decoder. (Operands of assembly lines are range-checked in
Sys2Proof/Machine/Assembly.lean, R86.) -/

namespace Sys2Proof

/-- One row of the table of R79. -/
structure OpcodeRow where
  mnemonic : String
  pattern : CommandWord
  mask : CommandWord
deriving DecidableEq, Repr

/-- The table of R79 (and of spec/opcode_table.json). -/
def opcodeRows : List OpcodeRow :=
  [ { mnemonic := "BEGIN", pattern := 0x0100000000000000, mask := 0xFFFFFFFF00000000 },
    { mnemonic := "PIXEL", pattern := 0x0200000000000000, mask := 0xFFFFFFFF00000000 },
    { mnemonic := "ENCODE", pattern := 0x0300000000000000, mask := 0xFFFFFFFFFFFFFFFF },
    { mnemonic := "RDPAL", pattern := 0x0400000000000000, mask := 0xFFFFFFFFFFFFFFF0 },
    { mnemonic := "RDIDX", pattern := 0x0500000000000000, mask := 0xFFFFFFFF00000000 },
    { mnemonic := "RDBPL", pattern := 0x0600000000000000, mask := 0xFFFFFFFF00000000 },
    { mnemonic := "RDSTAT", pattern := 0x0700000000000000, mask := 0xFFFFFFFFFFFFFFFF },
    { mnemonic := "RDFINFO", pattern := 0x0800000000000000, mask := 0xFFFFFFFFFFFFFFFF },
    { mnemonic := "SRST", pattern := 0x0F00000000000000, mask := 0xFFFFFFFFFFFFFFFF } ]

/-- A row matches a word (R79). -/
def OpcodeRow.matchesWord (row : OpcodeRow) (word : CommandWord) : Bool :=
  word &&& row.mask == row.pattern

/-- A command word is legal exactly when some row matches it (R79). -/
def legalWord (word : CommandWord) : Bool :=
  opcodeRows.any (·.matchesWord word)

end Sys2Proof
end

