-- ==== Sys2Proof/Decode.lean ====
section
/-! DEFINITION. Command decode and encode, from the field layouts of spec/30_encoding.md R71-R78. Decoding is
total: every word that is no command is rejected by name (R80, R172; spec/43_control.md R171). -/

namespace Sys2Proof

/-- Why a word is illegal (R171): both kinds raise IllegalCommand. -/
inductive RejectReason where
  /-- The opcode is none of the nine assigned ones (R72). -/
  | unassignedOpcode
  /-- The opcode is assigned and a reserved bit of its format is set (R172). -/
  | reservedBitsSet
deriving DecidableEq, Repr

/-- `word[63:56]`, the field `OP` (R71). -/
def opField (word : CommandWord) : BitVec 8 := word.extractLsb' 56 8

/-- `word[55:32]`, the field `RSV` (R71). -/
def rsvField (word : CommandWord) : BitVec 24 := word.extractLsb' 32 24

/-- `word[31:0]`, the operand area (R71). -/
def operandArea (word : CommandWord) : Word32 := word.extractLsb' 0 32

/-- Accept a command if its format's reserved bits are all 0, and reject it otherwise (R172). -/
def acceptIf (reservedClear : Bool) (i : Instr) : Except RejectReason Instr :=
  if reservedClear then .ok i else .error .reservedBitsSet

/-- DECODE (R170): the command a word spells (R72-R79), or why it spells none. -/
def decodeWord (word : CommandWord) : Except RejectReason Instr :=
  let op := opField word
  let area := operandArea word
  let rsvClear := rsvField word == 0
  let areaClear := area == 0
  if op = 0x01 then
    acceptIf rsvClear (.begin (area.extractLsb' 16 16) (area.extractLsb' 0 16))
  else if op = 0x02 then
    acceptIf rsvClear
      (.pixel (area.extractLsb' 24 8) (area.extractLsb' 16 8) (area.extractLsb' 8 8)
        (area.extractLsb' 0 8))
  else if op = 0x03 then
    acceptIf (rsvClear && areaClear) .encode
  else if op = 0x04 then
    acceptIf (rsvClear && area.extractLsb' 4 28 == 0) (.rdpal (area.extractLsb' 0 4))
  else if op = 0x05 then
    acceptIf rsvClear (.rdidx (area.extractLsb' 16 16) (area.extractLsb' 0 16))
  else if op = 0x06 then
    acceptIf rsvClear (.rdbpl area)
  else if op = 0x07 then
    acceptIf (rsvClear && areaClear) .rdstat
  else if op = 0x08 then
    acceptIf (rsvClear && areaClear) .rdfinfo
  else if op = 0x0F then
    acceptIf (rsvClear && areaClear) .srst
  else
    .error .unassignedOpcode

/-- The opcode of a command (R72). -/
def opcodeOf : Instr → BitVec 8
  | .begin _ _ => 0x01
  | .pixel _ _ _ _ => 0x02
  | .encode => 0x03
  | .rdpal _ => 0x04
  | .rdidx _ _ => 0x05
  | .rdbpl _ => 0x06
  | .rdstat => 0x07
  | .rdfinfo => 0x08
  | .srst => 0x0F

/-- The operand area of a command, every reserved bit 0 (R73-R78). -/
def operandsOf : Instr → Word32
  | .begin w h => w ++ h
  | .pixel r g b a => r ++ g ++ b ++ a
  | .encode => 0
  | .rdpal i => (0 : BitVec 28) ++ i
  | .rdidx x y => x ++ y
  | .rdbpl off => off
  | .rdstat => 0
  | .rdfinfo => 0
  | .srst => 0

/-- The command word of a command: opcode, 24 zero bits, operand area (R71, R86). -/
def encode (i : Instr) : CommandWord :=
  opcodeOf i ++ (0 : BitVec 24) ++ operandsOf i

/-- The decoder on a word given as a number of `nbits` bits, numbered as spec/opcode_table.json numbers them
(bit 0 the least significant). A QP command is one 64-bit word, so the number is the word itself. -/
def decodeTableWord (nbits w : Nat) : Option Instr :=
  (decodeWord (BitVec.ofNat 64 (w % 2 ^ min nbits 64))).toOption

end Sys2Proof
end

