-- ==== Sys2Proof/Config.lean ====
section
/-! DEFINITION. The parameters of the QP (spec/00_scope.md R7): the constants the source fixes, and the
parameters an implementation chooses. -/

namespace Sys2Proof

/-- What ENCODE does with a one-color palette (R7, R121; spec/92_eei_decisions.md D14). -/
inductive SingleColorPolicy where
  /-- One bitplane; the default. -/
  | onePlane
  /-- ENCODE raises SingleColorUndefined. -/
  | fault
deriving DecidableEq, Repr

/-- The parameters a QP is built with (R7). They are not state in the spec (R36); the model carries one
`Config` in its state, which no step changes, so that a statement over all states holds for every
choice of parameters (DESIGN CHOICE, log entry 3). -/
structure Config where
  /-- `MAX_W`: the widest image accepted. -/
  maxW : Nat
  /-- `MAX_H`: the tallest image accepted. -/
  maxH : Nat
  /-- `SINGLE_COLOR_POLICY`. -/
  policy : SingleColorPolicy
deriving DecidableEq, Repr

/-- `MAX_W` and `MAX_H` lie in 1..65535 (R7). -/
def Config.valid (c : Config) : Bool :=
  (1 ≤ c.maxW && c.maxW ≤ 65535) && (1 ≤ c.maxH && c.maxH ≤ 65535)

/-- The default configuration of spec/95_test_vectors.md: `SINGLE_COLOR_POLICY = one_plane` (the default
of R7) and `MAX_W = MAX_H = 65535` (log entry 3). -/
def Config.default : Config := { maxW := 65535, maxH := 65535, policy := .onePlane }

/-- `PAL_CAP`: palette capacity in entries (R7). -/
abbrev palCap : Nat := 16

/-- `MAX_PLANES`: most bitplanes (R7). -/
abbrev maxPlanes : Nat := 4

end Sys2Proof
end

