-- ==== Sys2Proof/Machine/State.lean ====
section
/-! DEFINITION. The state of the QP as plain data (spec/10_state.md R22, R33), the host-level stops, and the
state after reset (spec/70_reset_and_hazards.md R201). -/

namespace Sys2Proof.Machine

/-- `PHASE` (R29). The register's 4-bit value is `Phase.code`; its reserved values 5..15 are never produced
and have no constructor (log entry 6). -/
inductive Phase where
  /-- After reset or SRST; no image. -/
  | idle
  /-- After BEGIN with a nonempty image, while pixels are still expected. -/
  | build
  /-- All pixels accepted; palette and index raster complete. -/
  | ready
  /-- ENCODE succeeded; plane count and bitplane buffer valid. -/
  | encoded
  /-- A fault was raised. -/
  | fault
deriving DecidableEq, Repr

/-- `FCODE` (spec/60_exceptions.md R181). The register's 4-bit value is `FaultCode.code`; its reserved values
8..15 are never produced and have no constructor (log entry 6). -/
inductive FaultCode where
  /-- No fault. -/
  | none
  /-- PIXEL brought a 17th distinct color. -/
  | paletteOverflow
  /-- ENCODE of a zero-area image. -/
  | emptyImage
  /-- ENCODE of a one-color image under the `fault` policy. -/
  | singleColorUndefined
  /-- An illegal command word. -/
  | illegalCommand
  /-- A command not accepted in the current phase. -/
  | sequenceError
  /-- A read operand outside the live part of its space. -/
  | rangeError
  /-- BEGIN with an image larger than the QP accepts. -/
  | capacityExceeded
deriving DecidableEq, Repr

/-- What the host does at the QP's pins: it presents a command word on the command port (R170), or it asserts
the reset input between two commands (R200). -/
inductive PortEvent where
  /-- A command word. -/
  | command (word : CommandWord)
  /-- The reset input. -/
  | reset
deriving DecidableEq, Repr

/-- A RAM: address and value pairs, addresses strictly rising. An address that is not listed holds no value
(spec/10_state.md R34, log entry 4). -/
abbrev Memory (w : Nat) := List (Nat × BitVec w)

/-- The host-level stops. No state that meets the invariant of R35 reaches one, and no QP fault is one: a QP
fault is the phase `Phase.fault`, a next state (R183). -/
inductive Fault where
  /-- RDIDX or ENCODE read an index cell that nothing has written, whose contents R34 leaves without a value.
  Safe: the model stops where the hardware goes on with some value (log entry 4). -/
  | unwrittenIdxCell
  /-- RDBPL read a bitplane byte that nothing has written, whose contents R34 leaves without a value.
  Safe: the model stops where the hardware goes on with some value (log entry 4). -/
  | unwrittenBplByte
  /-- PIXEL, ENCODE or RDIDX accessed an index cell at or above `IDX_CAP`, which does not exist (R50).
  Safe: the model stops where the spec gives no cell (log entry 5). -/
  | noSuchIdxCell
  /-- ENCODE or RDBPL accessed a bitplane byte at or above `BPL_CAP`, which does not exist (R50).
  Safe: the model stops where the spec gives no byte (log entry 5). -/
  | noSuchBplByte
deriving DecidableEq, Repr

/-- The refusals. No meaning of this model refuses: every command of the table has its effect. -/
inductive Refusal where
  /-- An instruction without a meaning yet; raised by no arm of this model. Safe. -/
  | notModelled (mnemonic : String)
deriving DecidableEq, Repr

/-- The QP's state: the registers of R22, the two RAMs of R33, and two fields of the model's own. -/
structure State where
  /-- `PHASE` (R29). -/
  phase : Phase
  /-- `FCODE` (R31, R181). -/
  fcode : FaultCode
  /-- `FINFO` (R182). -/
  finfo : Word32
  /-- `W` (R26). -/
  w : BitVec 16
  /-- `H` (R26). -/
  h : BitVec 16
  /-- `N`, the pixel cursor (R27). -/
  n : BitVec 32
  /-- `PCOUNT`, the palette length (R25). -/
  pcount : BitVec 5
  /-- `PAL[0..15]` (R23). -/
  pal : Vector Color palCap
  /-- `NP`, the bitplane count (R28). -/
  np : BitVec 3
  /-- `RESP` (R32). -/
  resp : Word32
  /-- The index RAM `IDX` (R33, R51). -/
  idx : Memory 4
  /-- The bitplane RAM `BPL` (R33, R52). -/
  bpl : Memory 8
  /-- The model's own: the QP's parameters (R7; log entry 3). -/
  cfg : Config
  /-- The model's own: what the host has yet to deliver, oldest first (log entry 1). -/
  port : List PortEvent
deriving DecidableEq, Repr

/-- The state right after the reset input or SRST (R201), under the default configuration, with nothing
delivered by the host. -/
def State.reset : State where
  phase := .idle
  fcode := .none
  finfo := 0
  w := 0
  h := 0
  n := 0
  pcount := 0
  pal := Vector.replicate palCap 0
  np := 0
  resp := 0
  idx := []
  bpl := []
  cfg := Config.default
  port := []

end Sys2Proof.Machine
end

