-- ==== Sys2Proof/Machine/Flags.lean ====
section
/-! DEFINITION. The QP's flags: the numeric values of `PHASE` and `FCODE`, and the status word that RDSTAT
returns (spec/10_state.md R29, R31; spec/60_exceptions.md R181; spec/42_readout_and_artifacts.md R150). -/

namespace Sys2Proof.Machine

/-- The value of `PHASE` (R29). -/
def Phase.code : Phase → BitVec 4
  | .idle => 0
  | .build => 1
  | .ready => 2
  | .encoded => 3
  | .fault => 4

/-- The value of `FCODE` (R181). -/
def FaultCode.code : FaultCode → BitVec 4
  | .none => 0
  | .paletteOverflow => 1
  | .emptyImage => 2
  | .singleColorUndefined => 3
  | .illegalCommand => 4
  | .sequenceError => 5
  | .rangeError => 6
  | .capacityExceeded => 7

/-- The status word `zext_32({NP, 3'b000, PCOUNT, FCODE, PHASE})` (R150). -/
def statusWord (s : State) : Word32 :=
  (s.np ++ (0 : BitVec 3) ++ s.pcount ++ s.fcode.code ++ s.phase.code).setWidth 32

end Sys2Proof.Machine
end

