-- ==== Sys2Proof/Machine/Operands.lean ====
section
/-! DEFINITION. Sizes, address computations and operand checks: the derived sizes of spec/00_scope.md R8, the
RAM layouts of spec/20_memory.md R51-R52, the palette register addresses of
spec/42_readout_and_artifacts.md R141, and the range checks of the command rules. -/

namespace Sys2Proof.Machine

/-- `byteWidth(W) = ceil(W / 8)` (R8). -/
def byteWidth (w : Nat) : Nat := (w + 7) / 8

/-- `area(W, H)` of the current image (R8). -/
def area (s : State) : Nat := s.w.toNat * s.h.toNat

/-- `bplSize(W, H, NP)` of the current image (R8). -/
def bplSize (s : State) : Nat := byteWidth s.w.toNat * s.h.toNat * s.np.toNat

/-- `IDX_CAP`: index cells (R8). -/
def idxCap (c : Config) : Nat := c.maxW * c.maxH

/-- `BPL_CAP`: bitplane bytes (R8). -/
def bplCap (c : Config) : Nat := byteWidth c.maxW * c.maxH * maxPlanes

/-- The index cell of pixel `(x, y)` (R51). -/
def idxAddr (s : State) (x y : Nat) : Nat := y * s.w.toNat + x

/-- `bplOffset(y, p, b)` for `np` planes of `bw` bytes a row (R52). -/
def bplOffset (np bw y p b : Nat) : Nat := (y * np + p) * bw + b

/-- The column of pixel number `k` (R27, R103). -/
def pixelColumn (s : State) (k : Nat) : Nat := k % s.w.toNat

/-- The row of pixel number `k` (R27, R103). -/
def pixelRow (s : State) (k : Nat) : Nat := k / s.w.toNat

/-- `PADDR(i)`, the downstream palette register of entry `i` (R141), as the 16 bits RDPAL returns. -/
def paddr (i : PaletteIndex) : BitVec 16 := BitVec.ofNat 16 (0x180 + i.toNat * 2)

/-- QUANTIZE: the upper nibble of each channel (R100). It does not read alpha (R101). -/
def quantize (r g b : Channel) : Color :=
  r.extractLsb' 4 4 ++ g.extractLsb' 4 4 ++ b.extractLsb' 4 4

/-- PALWORD: a Quantized Color under four zero bits (R122). -/
def palWord (c : Color) : PaletteWord := c.setWidth 16

/-- Entry `i` of the palette file (R23). -/
def palEntry (s : State) (i : PaletteIndex) : Color := s.pal[i.toNat]'i.isLt

/-- What RDPAL returns for entry `i` (R81, R140). -/
def paletteResponse (s : State) (i : PaletteIndex) : Word32 := paddr i ++ palWord (palEntry s i)

/-- The live palette `PAL[0] .. PAL[PCOUNT-1]`, in insertion order (R23, R24). -/
def livePal (s : State) : List Color := s.pal.toList.take s.pcount.toNat

/-- LOOKUP: the least live index that holds the color, if any (R102). -/
def lookup (s : State) (c : Color) : Option PaletteIndex :=
  ((livePal s).findIdx? (· == c)).map (BitVec.ofNat 4)

/-- BEGIN's operands fit the QP (R104). -/
def imageFits (c : Config) (w h : BitVec 16) : Bool := w.toNat ≤ c.maxW && h.toNat ≤ c.maxH

/-- RDPAL's operand is a live index (R140). -/
def isLiveIndex (s : State) (i : PaletteIndex) : Bool := i.toNat < s.pcount.toNat

/-- RDIDX's operands lie in the raster (R145). -/
def inRaster (s : State) (x y : BitVec 16) : Bool := x.toNat < s.w.toNat && y.toNat < s.h.toNat

/-- RDBPL's operand lies in the bitplane buffer (R147). -/
def inBuffer (s : State) (off : Word32) : Bool := off.toNat < bplSize s

end Sys2Proof.Machine
end

