-- ==== Sys2Proof/Machine/Ops.lean ====
section
/-! DEFINITION. The named operations over the QP's registers and memories: the RAM reads and writes of
spec/00_scope.md R11, taking a fault (spec/60_exceptions.md R183), the phase filter
(spec/43_control.md R173, R184), the response (R32) and the register reset (R174, R201). The way back from a
fault is the register reset and nothing else (R185). -/

namespace Sys2Proof.Machine

/-! ### Memory -/

/-- The value at an address, or no value where nothing has written. -/
def Memory.read {w : Nat} : Memory w → Nat → Option (BitVec w)
  | [], _ => none
  | (k, v) :: rest, a => if k = a then some v else Memory.read rest a

/-- Store a value, keeping addresses strictly rising. -/
def Memory.write {w : Nat} : Memory w → Nat → BitVec w → Memory w
  | [], a, v => [(a, v)]
  | (k, u) :: rest, a, v =>
    if a < k then (a, v) :: (k, u) :: rest
    else if a = k then (a, v) :: rest
    else (k, u) :: Memory.write rest a v

/-- The canonical form above a lower bound: every address at least the bound, and strictly rising. -/
def Memory.wfFrom {w : Nat} : Nat → Memory w → Bool
  | _, [] => true
  | lo, (k, _) :: rest => lo ≤ k && Memory.wfFrom (k + 1) rest

/-- The canonical form of a memory: addresses strictly rising. An unlisted address reads as no value, so no
entry can repeat what an unlisted address reads as. -/
def Memory.wf {w : Nat} (m : Memory w) : Bool := Memory.wfFrom 0 m

/-- Every listed address lies below a capacity. -/
def Memory.within {w : Nat} (cap : Nat) (m : Memory w) : Bool := m.all (·.1 < cap)

/-- `MemRead(IDX, k, 1)` (R11, R50). -/
def readIdx (s : State) (k : Nat) : Except Fault PaletteIndex :=
  if k < idxCap s.cfg then
    match Memory.read s.idx k with
    | some v => .ok v
    | none => .error .unwrittenIdxCell
  else .error .noSuchIdxCell

/-- `MemWrite(IDX, k, 1, v)` (R11, R50). -/
def writeIdx (k : Nat) (v : PaletteIndex) (s : State) : Except Fault State :=
  if k < idxCap s.cfg then .ok { s with idx := Memory.write s.idx k v }
  else .error .noSuchIdxCell

/-- `MemRead(BPL, o, 1)` (R11, R50). -/
def readBpl (s : State) (o : Nat) : Except Fault Byte :=
  if o < bplCap s.cfg then
    match Memory.read s.bpl o with
    | some v => .ok v
    | none => .error .unwrittenBplByte
  else .error .noSuchBplByte

/-- `MemWrite(BPL, o, 1, v)` (R11, R50). -/
def writeBpl (o : Nat) (v : Byte) (s : State) : Except Fault State :=
  if o < bplCap s.cfg then .ok { s with bpl := Memory.write s.bpl o v }
  else .error .noSuchBplByte

/-! ### Outcomes and registers -/

/-- A command's result as an outcome of the step. -/
def settle : Except Fault State → Host.Outcome State Fault Refusal
  | .ok s => .next s
  | .error r => .fault r

/-- `raise Fault(code, info)`: the fault record and the phase, nothing else (R183). -/
def raiseFault (code : FaultCode) (info : Word32) (s : State) : State :=
  { s with phase := .fault, fcode := code, finfo := info }

/-- The FAULT-phase filter: in FAULT the command is ignored (R173, R184 item 1). -/
def unlessFaulted (s : State) (perform : Host.Outcome State Fault Refusal) :
    Host.Outcome State Fault Refusal :=
  if s.phase = .fault then .next s else perform

/-- The FAULT-phase filter, then the phase check: a command not accepted in the current phase raises
SequenceError with its opcode (R184 items 1 and 3, R181). -/
def inPhases (accepted : List Phase) (op : BitVec 8) (s : State)
    (perform : Host.Outcome State Fault Refusal) : Host.Outcome State Fault Refusal :=
  unlessFaulted s
    (if s.phase ∈ accepted then perform
     else .next (raiseFault .sequenceError (op.setWidth 32) s))

/-- The operand check of a read: an operand out of range raises RangeError with the command's opcode
(R184 item 4, R181). -/
def inRange (ok : Bool) (op : BitVec 8) (s : State)
    (perform : Host.Outcome State Fault Refusal) : Host.Outcome State Fault Refusal :=
  if ok then perform else .next (raiseFault .rangeError (op.setWidth 32) s)

/-- `respond(v)` (R11, R32). -/
def respond (v : Word32) (s : State) : State := { s with resp := v }

/-- The register reset of SRST and of the reset input: every register 0, the RAM contents unchanged
(R174, R200, R201; log entry 8). -/
def resetRegisters (s : State) : State :=
  { s with
    phase := .idle
    fcode := .none
    finfo := 0
    w := 0
    h := 0
    n := 0
    pcount := 0
    pal := Vector.replicate palCap 0
    np := 0
    resp := 0 }

/-! ### The command port -/

/-- Take the oldest event the host has delivered (R60, R170). -/
def takeEvent (s : State) : Option (PortEvent × State) :=
  match s.port with
  | [] => none
  | e :: rest => some (e, { s with port := rest })

/-- The host presents a command word that the QP takes next. -/
def presentWord (word : CommandWord) (s : State) : State :=
  { s with port := .command word :: s.port }

end Sys2Proof.Machine
end

