-- ==== Sys2Proof/Machine/BitplaneEncoder.lean ====
section
/-! DEFINITION. The Bitplane Encoder: ENCODE and its functions PLANES and PACK
(spec/41_bitplane_encoder.md). -/

namespace Sys2Proof.Machine

/-- The halvings that `bitlength` counts, at most `fuel` of them. -/
def bitlengthFuel : Nat → Nat → Nat
  | 0, _ => 0
  | fuel + 1, v => if v = 0 then 0 else bitlengthFuel fuel (v / 2) + 1

/-- `bitlength(v)`: the number of binary digits of `v` (spec/00_scope.md R10). -/
def bitlength (v : Nat) : Nat := bitlengthFuel v v

/-- PLANES(P): the bitplane count, or the fault ENCODE raises (R121, R126; above 16, log entry 9). -/
def planes (policy : SingleColorPolicy) : Nat → Except FaultCode Nat
  | 0 => .error .emptyImage
  | 1 =>
    match policy with
    | .onePlane => .ok 1
    | .fault => .error .singleColorUndefined
  | p + 2 => .ok (bitlength (p + 1))

/-- PACKBIT(y, p, b, j): plane `p` of the pixel at column `8b + (7 - j)`, or 0 past the image's width (R123). -/
def packBit (s : State) (y p b j : Nat) : Except Fault Bool :=
  let x := 8 * b + (7 - j)
  if x < s.w.toNat then (readIdx s (idxAddr s x y)).map (·.getLsbD p)
  else .ok false

/-- The low `k` bits of a packed byte (R124): bit `j` is PACKBIT(y, p, b, j). -/
def packBits (s : State) (y p b : Nat) : (k : Nat) → Except Fault (BitVec k)
  | 0 => .ok 0#0
  | k + 1 =>
    match packBits s y p b k, packBit s y p b k with
    | .ok low, .ok bit => .ok (BitVec.cons bit low)
    | .error r, _ => .error r
    | _, .error r => .error r

/-- PACKBYTE(y, p, b) (R124). -/
def packByte (s : State) (y p b : Nat) : Except Fault Byte := packBits s y p b 8

/-- The loop of ENCODE: every `(y, p, b)` in the order of R126, rows outermost and bytes innermost. -/
def packOrder (h np bw : Nat) : List (Nat × Nat × Nat) :=
  (List.range h).flatMap fun y => (List.range np).flatMap fun p =>
    (List.range bw).map fun b => (y, p, b)

/-- Pack and store the byte of each position in turn (R126). -/
def packEach (np : Nat) : List (Nat × Nat × Nat) → State → Except Fault State
  | [], s => .ok s
  | (y, p, b) :: rest, s =>
    match packByte s y p b with
    | .error r => .error r
    | .ok v =>
      match writeBpl (bplOffset np (byteWidth s.w.toNat) y p b) v s with
      | .error r => .error r
      | .ok t => packEach np rest t

/-- Record the plane count and enter ENCODED (R126). -/
def finishEncode (np : Nat) (s : State) : State :=
  { s with np := BitVec.ofNat 3 np, phase := .encoded }

/-- Fill the bitplane buffer for `np` planes (R126). -/
def encodeImage (np : Nat) (s : State) : Except Fault State :=
  (packEach np (packOrder s.h.toNat np (byteWidth s.w.toNat)) s).map (finishEncode np)

/-- ENCODE (R126). -/
def execEncode (s : State) : Host.Outcome State Fault Refusal :=
  inPhases [.ready] 0x03 s
    (match planes s.cfg.policy s.pcount.toNat with
     | .error code => .next (raiseFault code 0 s)
     | .ok np => settle (encodeImage np s))

end Sys2Proof.Machine
end

