-- ==== Sys2Proof/Machine/Control.lean ====
section
/-! DEFINITION. Control: SRST, the reset input, illegal words and the idle port (spec/43_control.md;
spec/70_reset_and_hazards.md R200). -/

namespace Sys2Proof.Machine

/-- SRST, performed in every phase (R174). -/
def execSrst (s : State) : Host.Outcome State Fault Refusal := .next (resetRegisters s)

/-- The reset input, whose effect is exactly that of SRST (R200). -/
def resetInput (s : State) : Host.Outcome State Fault Refusal := .next (resetRegisters s)

/-- An illegal word: IllegalCommand with its opcode byte outside FAULT (R171), ignored in FAULT (R173). -/
def rejectWord (op : BitVec 8) (s : State) : Host.Outcome State Fault Refusal :=
  unlessFaulted s (.next (raiseFault .illegalCommand (op.setWidth 32) s))

/-- No event delivered: the QP does nothing (DESIGN CHOICE, log entry 1). -/
def idlePort (s : State) : Host.Outcome State Fault Refusal := .next s

end Sys2Proof.Machine
end

