-- ==== Sys2Proof/Machine/PaletteBuilder.lean ====
section
/-! DEFINITION. The Palette Builder: BEGIN and PIXEL (spec/40_palette_builder.md). -/

namespace Sys2Proof.Machine

/-- Open a new image (R104): the palette is emptied, the RAMs and the `PAL` entries are not cleared. -/
def openImage (w h : BitVec 16) (s : State) : State :=
  { s with
    w := w
    h := h
    n := 0
    pcount := 0
    np := 0
    phase := if w.toNat * h.toNat = 0 then .ready else .build }

/-- BEGIN (R104). -/
def execBegin (w h : BitVec 16) (s : State) : Host.Outcome State Fault Refusal :=
  unlessFaulted s
    (if imageFits s.cfg w h then .next (openImage w h s)
     else .next (raiseFault .capacityExceeded 0x01 s))

/-- Append a color at the end of the live palette (R107; in states no run reaches, log entry 9). -/
def appendColor (c : Color) (s : State) : State :=
  { s with pal := s.pal.setIfInBounds s.pcount.toNat c, pcount := s.pcount + 1 }

/-- Advance the pixel cursor; the last pixel completes the image (R107; in states no run reaches, log
entry 9). -/
def advanceCursor (s : State) : State :=
  { s with
    n := s.n + 1
    phase := if (s.n + 1).toNat = area s then .ready else s.phase }

/-- Store the index of the current pixel and advance the cursor (R107). -/
def recordIndex (i : PaletteIndex) (s : State) : Except Fault State :=
  (writeIdx s.n.toNat i s).map advanceCursor

/-- Accept a quantized pixel: a known color keeps its index, a new one is appended, and a new one into a full
palette raises PaletteOverflow with the pixel's number (R106, R107). -/
def acceptColor (c : Color) (s : State) : Host.Outcome State Fault Refusal :=
  match lookup s c with
  | some i => settle (recordIndex i s)
  | none =>
    if s.pcount = 16 then .next (raiseFault .paletteOverflow s.n s)
    else settle (recordIndex (s.pcount.setWidth 4) (appendColor c s))

/-- PIXEL (R107). -/
def execPixel (r g b _a : Channel) (s : State) : Host.Outcome State Fault Refusal :=
  inPhases [.build] 0x02 s (acceptColor (quantize r g b) s)

end Sys2Proof.Machine
end

