-- ==== Sys2Proof/Machine/Readout.lean ====
section
/-! DEFINITION. The read commands (spec/42_readout_and_artifacts.md R140-R152). A read that succeeds writes
`RESP` and nothing else (R57). -/

namespace Sys2Proof.Machine

/-- The value a RAM read returns becomes the response, zero-extended (R81). -/
def respondWith {n : Nat} (value : Except Fault (BitVec n)) (s : State) :
    Host.Outcome State Fault Refusal :=
  settle (value.map fun v => respond (v.setWidth 32) s)

/-- RDPAL (R140). -/
def execRdpal (i : PaletteIndex) (s : State) : Host.Outcome State Fault Refusal :=
  inPhases [.ready, .encoded] 0x04 s
    (inRange (isLiveIndex s i) 0x04 s (.next (respond (paletteResponse s i) s)))

/-- RDIDX (R145). -/
def execRdidx (x y : BitVec 16) (s : State) : Host.Outcome State Fault Refusal :=
  inPhases [.ready, .encoded] 0x05 s
    (inRange (inRaster s x y) 0x05 s (respondWith (readIdx s (idxAddr s x.toNat y.toNat)) s))

/-- RDBPL (R147). -/
def execRdbpl (off : Word32) (s : State) : Host.Outcome State Fault Refusal :=
  inPhases [.encoded] 0x06 s
    (inRange (inBuffer s off) 0x06 s (respondWith (readBpl s off.toNat) s))

/-- RDSTAT, performed in every phase (R150). -/
def execRdstat (s : State) : Host.Outcome State Fault Refusal := .next (respond (statusWord s) s)

/-- RDFINFO, performed in every phase (R152). -/
def execRdfinfo (s : State) : Host.Outcome State Fault Refusal := .next (respond s.finfo s)

end Sys2Proof.Machine
end

