-- ==== Sys2Proof/Machine/Dispatch.lean ====
section
/-! DEFINITION. exec: the meaning of each command, one arm per constructor of `Instr`. -/

namespace Sys2Proof.Machine

def exec (i : Instr) (s : State) : Host.Outcome State Fault Refusal :=
  match i with
  | .begin w h => Sys2Proof.Machine.execBegin w h s
  | .pixel r g b a => Sys2Proof.Machine.execPixel r g b a s
  | .encode => Sys2Proof.Machine.execEncode s
  | .rdpal i4 => Sys2Proof.Machine.execRdpal i4 s
  | .rdidx x y => Sys2Proof.Machine.execRdidx x y s
  | .rdbpl off => Sys2Proof.Machine.execRdbpl off s
  | .rdstat => Sys2Proof.Machine.execRdstat s
  | .rdfinfo => Sys2Proof.Machine.execRdfinfo s
  | .srst => Sys2Proof.Machine.execSrst s

end Sys2Proof.Machine
end

