-- ==== Sys2Proof/Machine/Step.lean ====
section
/-! DEFINITION. One step of the QP (spec/43_control.md R170): take the oldest event of the port and perform
it whole (spec/00_scope.md R12); what the model leaves out of the port's timing is log entry 10. -/

namespace Sys2Proof.Machine

/-- STEP(word) for a word taken from the port (R170). The FAULT-phase filter stands in each meaning. -/
def performWord (word : CommandWord) (s : State) : Host.Outcome State Fault Refusal :=
  match decodeWord word with
  | .ok i => exec i s
  | .error _ => rejectWord (opField word) s

/-- One step: a command word, the reset input, or nothing delivered (R170, R200; log entry 1). -/
def step (s : State) : Host.Outcome State Fault Refusal :=
  match takeEvent s with
  | none => idlePort s
  | some (.reset, t) => resetInput t
  | some (.command word, t) => performWord word t

/-- The state in which the host presents the given word next, so that `step` takes and performs exactly it
(log entry 2). A QP command is one 64-bit word. -/
def State.withFetchWord (s : State) (nbits w : Nat) : State :=
  presentWord (BitVec.ofNat 64 (w % 2 ^ min nbits 64)) s

end Sys2Proof.Machine
end

