-- ==== Sys2Proof/Machine/Artifacts.lean ====
section
/-! DEFINITION. The two output artifacts, byte for byte (spec/42_readout_and_artifacts.md R160-R165), as the host
assembles them: the palette script from the responses of RDPAL, the bitplane binary from the bytes that
RDBPL returns (log entry 12). -/

namespace Sys2Proof.Machine

/-- One hexadecimal digit in ASCII, lowercase (R161, R163). -/
def hexDigit (d : BitVec 4) : Byte :=
  if d.toNat < 10 then BitVec.ofNat 8 (0x30 + d.toNat) else BitVec.ofNat 8 (0x61 + (d.toNat - 10))

/-- The four nibbles of a 16-bit value, most significant first. -/
def nibbles (v : BitVec 16) : List (BitVec 4) :=
  [v.extractLsb' 12 4, v.extractLsb' 8 4, v.extractLsb' 4 4, v.extractLsb' 0 4]

/-- HEX(v): natural lowercase hexadecimal, no leading zeros, `0` for zero (R161). -/
def hex (v : BitVec 16) : List Byte :=
  match (nibbles v).dropWhile (· == 0) with
  | [] => [hexDigit 0]
  | ds => ds.map hexDigit

/-- One line of the palette script (R160), from the response of RDPAL: a tab, `dc.w $`, the address digits,
`,$`, the word digits, a line feed, in ASCII (R163). -/
def scriptLine (response : Word32) : List Byte :=
  [0x09, 0x64, 0x63, 0x2E, 0x77, 0x20, 0x24] ++ hex (response.extractLsb' 16 16) ++
    [0x2C, 0x24] ++ hex (response.extractLsb' 0 16) ++ [0x0A]

/-- The palette script: one line per live entry, in palette-index order (R162). -/
def paletteScript (s : State) : List Byte :=
  (List.range s.pcount.toNat).flatMap fun i => scriptLine (paletteResponse s (BitVec.ofNat 4 i))

/-- The bitplane bytes `BPL[0] .. BPL[k-1]`, if each holds a value. -/
def bplBytes (s : State) : Nat → Option (List Byte)
  | 0 => some []
  | k + 1 =>
    match bplBytes s k, Memory.read s.bpl k with
    | some front, some v => some (front ++ [v])
    | _, _ => none

/-- The bitplane binary: the bytes of the buffer in order, no header (R164). -/
def bitplaneBinary (s : State) : Option (List Byte) := bplBytes s (bplSize s)

/-- Both artifacts, valid only from an ENCODED state (R165). -/
def artifacts (s : State) : Option (List Byte × List Byte) :=
  if s.phase = .encoded then (bitplaneBinary s).map fun binary => (paletteScript s, binary)
  else none

end Sys2Proof.Machine
end

