-- ==== Sys2Proof/Machine/Assembly.lean ====
section
/-! DEFINITION. The assembly syntax of QP command streams (spec/30_encoding.md R86) and its one
pseudo-instruction (R87). The text details R86 leaves open are log entry 11. -/

namespace Sys2Proof.Machine

/-- An assembly command with operands as written, before any range check (R86). -/
inductive AsmCommand where
  | begin (w h : Nat)
  | pixel (r g b a : Nat)
  /-- The three-operand pseudo-instruction (R87). -/
  | pixelOpaque (r g b : Nat)
  | encode
  | rdpal (i : Nat)
  | rdidx (x y : Nat)
  | rdbpl (off : Nat)
  | rdstat
  | rdfinfo
  | srst
deriving DecidableEq, Repr

/-- The assembly errors. -/
inductive AsmError where
  /-- The line's first word is none of the nine mnemonics. -/
  | unknownMnemonic
  /-- An operand is not a decimal or `0x` hexadecimal number. -/
  | malformedNumber
  /-- The mnemonic takes another number of operands. -/
  | operandCount
  /-- An operand lies outside its field's range (R86). -/
  | operandRange
deriving DecidableEq, Repr

/-- Every operand lies in the range of R86. -/
def AsmCommand.inRange : AsmCommand → Bool
  | .begin w h => w ≤ 65535 && h ≤ 65535
  | .pixel r g b a => r ≤ 255 && g ≤ 255 && b ≤ 255 && a ≤ 255
  | .pixelOpaque r g b => r ≤ 255 && g ≤ 255 && b ≤ 255
  | .encode => true
  | .rdpal i => i ≤ 15
  | .rdidx x y => x ≤ 65535 && y ≤ 65535
  | .rdbpl off => off < 2 ^ 32
  | .rdstat => true
  | .rdfinfo => true
  | .srst => true

/-- The command with each operand in its field; three-operand PIXEL has alpha 255 (R87). -/
def AsmCommand.toInstr : AsmCommand → Instr
  | .begin w h => .begin (BitVec.ofNat 16 w) (BitVec.ofNat 16 h)
  | .pixel r g b a =>
    .pixel (BitVec.ofNat 8 r) (BitVec.ofNat 8 g) (BitVec.ofNat 8 b) (BitVec.ofNat 8 a)
  | .pixelOpaque r g b => .pixel (BitVec.ofNat 8 r) (BitVec.ofNat 8 g) (BitVec.ofNat 8 b) 255
  | .encode => .encode
  | .rdpal i => .rdpal (BitVec.ofNat 4 i)
  | .rdidx x y => .rdidx (BitVec.ofNat 16 x) (BitVec.ofNat 16 y)
  | .rdbpl off => .rdbpl (BitVec.ofNat 32 off)
  | .rdstat => .rdstat
  | .rdfinfo => .rdfinfo
  | .srst => .srst

/-- The command word of an assembly command; an operand out of range is an assembly error, not an
encoding (R86). -/
def assemble (c : AsmCommand) : Except AsmError CommandWord :=
  if c.inRange then .ok (encode c.toInstr) else .error .operandRange

/-! ### Text -/

/-- The parts of a text between the occurrences of a character. -/
def splitAtChar (sep : Char) : List Char → List (List Char)
  | [] => [[]]
  | c :: rest =>
    if c = sep then [] :: splitAtChar sep rest
    else
      match splitAtChar sep rest with
      | [] => [[c]]
      | part :: parts => (c :: part) :: parts

/-- White space inside a line. -/
def isBlank (c : Char) : Bool := c == ' ' || c == '\t' || c == '\r'

/-- A text without the white space at its two ends. -/
def trim (text : List Char) : List Char :=
  ((text.dropWhile isBlank).reverse.dropWhile isBlank).reverse

/-- The value of a digit character, either letter case. -/
def digitValue (c : Char) : Option Nat :=
  if '0' ≤ c ∧ c ≤ '9' then some (c.toNat - '0'.toNat)
  else if 'a' ≤ c ∧ c ≤ 'f' then some (c.toNat - 'a'.toNat + 10)
  else if 'A' ≤ c ∧ c ≤ 'F' then some (c.toNat - 'A'.toNat + 10)
  else none

/-- The value of a digit string in a base, read on from an accumulator. -/
def digitsValue (base : Nat) : Nat → List Char → Option Nat
  | acc, [] => some acc
  | acc, c :: rest =>
    match digitValue c with
    | some d => if d < base then digitsValue base (acc * base + d) rest else none
    | none => none

/-- A number: decimal, or hexadecimal with a `0x` prefix (R86). -/
def parseNumber (text : List Char) : Except AsmError Nat :=
  match text with
  | [] => .error .malformedNumber
  | ['0', 'x'] => .error .malformedNumber
  | '0' :: 'x' :: digits =>
    match digitsValue 16 0 digits with
    | some v => .ok v
    | none => .error .malformedNumber
  | digits =>
    match digitsValue 10 0 digits with
    | some v => .ok v
    | none => .error .malformedNumber

/-- Parse each operand. -/
def parseNumbers : List (List Char) → Except AsmError (List Nat)
  | [] => .ok []
  | text :: rest =>
    match parseNumber (trim text), parseNumbers rest with
    | .ok v, .ok vs => .ok (v :: vs)
    | .error e, _ => .error e
    | _, .error e => .error e

/-- The command a mnemonic and its operands form (R86, R87). -/
def formCommand (name : List Char) (operands : List Nat) : Except AsmError AsmCommand :=
  if name = "BEGIN".toList then
    match operands with
    | [w, h] => .ok (.begin w h)
    | _ => .error .operandCount
  else if name = "PIXEL".toList then
    match operands with
    | [r, g, b, a] => .ok (.pixel r g b a)
    | [r, g, b] => .ok (.pixelOpaque r g b)
    | _ => .error .operandCount
  else if name = "ENCODE".toList then
    if operands = [] then .ok .encode else .error .operandCount
  else if name = "RDPAL".toList then
    match operands with
    | [i] => .ok (.rdpal i)
    | _ => .error .operandCount
  else if name = "RDIDX".toList then
    match operands with
    | [x, y] => .ok (.rdidx x y)
    | _ => .error .operandCount
  else if name = "RDBPL".toList then
    match operands with
    | [off] => .ok (.rdbpl off)
    | _ => .error .operandCount
  else if name = "RDSTAT".toList then
    if operands = [] then .ok .rdstat else .error .operandCount
  else if name = "RDFINFO".toList then
    if operands = [] then .ok .rdfinfo else .error .operandCount
  else if name = "SRST".toList then
    if operands = [] then .ok .srst else .error .operandCount
  else .error .unknownMnemonic

/-- Parse one line: the mnemonic, then operands separated by commas; a `;` starts a comment (R86). A line with
nothing before its comment holds no command. -/
def parseLine (line : List Char) : Except AsmError (Option AsmCommand) :=
  let code := trim (line.takeWhile (· ≠ ';'))
  let name := code.takeWhile (fun c => !isBlank c)
  let args := trim (code.dropWhile (fun c => !isBlank c))
  if code = [] then .ok none
  else
    match parseNumbers (if args = [] then [] else splitAtChar ',' args) with
    | .error e => .error e
    | .ok operands => (formCommand name operands).map some

/-- Assemble one line to its command word, if it holds a command. -/
def assembleLine (line : List Char) : Except AsmError (Option CommandWord) :=
  match parseLine line with
  | .error e => .error e
  | .ok none => .ok none
  | .ok (some c) => (assemble c).map some

/-- Assemble lines in order. -/
def assembleLines : List (List Char) → Except AsmError (List CommandWord)
  | [] => .ok []
  | line :: rest =>
    match assembleLine line, assembleLines rest with
    | .ok (some word), .ok words => .ok (word :: words)
    | .ok none, .ok words => .ok words
    | .error e, _ => .error e
    | _, .error e => .error e

/-- Assemble a text, one command per line (R86). -/
def assembleText (text : List Char) : Except AsmError (List CommandWord) :=
  assembleLines (splitAtChar '\n' text)

end Sys2Proof.Machine
end

