-- ==== Sys2Proof/Safety.lean ====
section
/-! DEFINITION. The terms that statements about the QP use: the invariant of spec/10_state.md R35, the phase
changes of R30, runs of commands, and the reference palette of spec/40_palette_builder.md R108. -/

namespace Sys2Proof.Machine

/-- The next state an outcome answers, if it answers one. -/
def nextState? : Host.Outcome State Fault Refusal → Option State
  | .next s => some s
  | .fault _ => none
  | .refused _ => none

/-- Perform commands in order, stopping at the first host-level stop (spec/20_memory.md R60). -/
def runCommands : List Instr → State → Host.Outcome State Fault Refusal
  | [], s => .next s
  | i :: rest, s =>
    match exec i s with
    | .next t => runCommands rest t
    | .fault r => .fault r
    | .refused r => .refused r

/-! ### The invariant -/

/-- The states that satisfy every item of R35, the phase meanings of R29, the fault-record rule of R31, the
coverage of R108 item 5, the packed buffer of R127, and the canonical form of both RAMs. -/
structure Inv (s : State) : Prop where
  /-- The parameters are legal (R7). -/
  cfg_valid : s.cfg.valid = true
  /-- `W ≤ MAX_W` (R35 item 6). -/
  w_le : s.w.toNat ≤ s.cfg.maxW
  /-- `H ≤ MAX_H` (R35 item 6). -/
  h_le : s.h.toNat ≤ s.cfg.maxH
  /-- `PCOUNT ≤ 16` (R35 item 1). -/
  pcount_le : s.pcount.toNat ≤ palCap
  /-- The live entries are pairwise distinct (R35 item 1). -/
  pal_distinct : (livePal s).Nodup
  /-- `N ≤ W*H` (R27). -/
  n_le : s.n.toNat ≤ area s
  /-- `PCOUNT ≤ N` (R35 item 3). -/
  pcount_le_n : s.pcount.toNat ≤ s.n.toNat
  /-- `PCOUNT = 0` exactly when `N = 0` (R35 item 3). -/
  pcount_zero : s.pcount = 0 ↔ s.n = 0
  /-- Every accepted pixel's cell is written and holds a live index (R35 item 2). -/
  idx_live : ∀ k, k < s.n.toNat → ∃ v ∈ Memory.read s.idx k, v.toNat < s.pcount.toNat
  /-- Every live entry is used by some accepted pixel (R108 item 5). -/
  entry_used : ∀ i, i < s.pcount.toNat →
    ∃ k, k < s.n.toNat ∧ Memory.read s.idx k = some (BitVec.ofNat 4 i)
  /-- In BUILD more pixels are expected (R29). -/
  build_open : s.phase = .build → s.n.toNat < area s
  /-- In READY and ENCODED every pixel was accepted (R35 item 4). -/
  raster_full : s.phase = .ready ∨ s.phase = .encoded → s.n.toNat = area s
  /-- In IDLE there is no image (R29, R201). -/
  idle_empty : s.phase = .idle → s.w = 0 ∧ s.h = 0 ∧ s.n = 0 ∧ s.pcount = 0
  /-- Before ENCODE the plane count is 0 (R28, R35 item 5). -/
  np_unset : s.phase = .idle ∨ s.phase = .build ∨ s.phase = .ready → s.np = 0
  /-- In ENCODED the plane count is PLANES(PCOUNT), at least 1 (R35 item 5). -/
  np_encoded : s.phase = .encoded →
    planes s.cfg.policy s.pcount.toNat = .ok s.np.toNat ∧ 1 ≤ s.np.toNat
  /-- In FAULT the plane count is 0, or that of the image encoded before the fault (R35 item 5). -/
  np_fault : s.phase = .fault →
    s.np = 0 ∨ planes s.cfg.policy s.pcount.toNat = .ok s.np.toNat
  /-- `FCODE` is nonzero exactly in FAULT (R31). -/
  fcode_fault : s.phase = .fault ↔ s.fcode ≠ .none
  /-- `FINFO` is 0 outside FAULT (R31). -/
  finfo_zero : s.phase ≠ .fault → s.finfo = 0
  /-- In ENCODED every byte of the buffer is the packed byte of its position (R127). -/
  bpl_packed : s.phase = .encoded →
    ∀ y, y < s.h.toNat → ∀ p, p < s.np.toNat → ∀ b, b < byteWidth s.w.toNat →
      ∃ v ∈ Memory.read s.bpl (bplOffset s.np.toNat (byteWidth s.w.toNat) y p b),
        packByte s y p b = .ok v
  /-- The index RAM has the canonical form. -/
  idx_wf : Memory.wf s.idx = true
  /-- The bitplane RAM has the canonical form. -/
  bpl_wf : Memory.wf s.bpl = true
  /-- The index RAM lists only cells that exist (R50). -/
  idx_within : Memory.within (idxCap s.cfg) s.idx = true
  /-- The bitplane RAM lists only bytes that exist (R50). -/
  bpl_within : Memory.within (bplCap s.cfg) s.bpl = true

/-- What a QP must be before its first reset for the model to say anything of it: legal parameters, and RAMs
in the canonical form that list only cells that exist. The registers may hold anything (R202; log entry 7). -/
structure PowerOn (s : State) : Prop where
  cfg_valid : s.cfg.valid = true
  idx_wf : Memory.wf s.idx = true
  bpl_wf : Memory.wf s.bpl = true
  idx_within : Memory.within (idxCap s.cfg) s.idx = true
  bpl_within : Memory.within (bplCap s.cfg) s.bpl = true

/-- Two states that agree on every register, on the live palette, on the accepted pixels' cells and, in ENCODED,
on the bitplane buffer. They may differ in the rest of `PAL`, `IDX` and `BPL` (R34), and in what the host has
yet to deliver. -/
structure LiveAgree (s t : State) : Prop where
  phase : t.phase = s.phase
  fcode : t.fcode = s.fcode
  finfo : t.finfo = s.finfo
  w : t.w = s.w
  h : t.h = s.h
  n : t.n = s.n
  pcount : t.pcount = s.pcount
  np : t.np = s.np
  resp : t.resp = s.resp
  cfg : t.cfg = s.cfg
  pal : livePal t = livePal s
  idx : ∀ k, k < s.n.toNat → Memory.read t.idx k = Memory.read s.idx k
  bpl : s.phase = .encoded → ∀ o, o < bplSize s → Memory.read t.bpl o = Memory.read s.bpl o

/-! ### Phase changes -/

/-- The rows of the table of R30, and the events that leave the phase alone (reads that succeed, commands
ignored in FAULT, an idle port). `event` is what the step took from the port. -/
def phaseChangeAllowed (event : Option PortEvent) (s t : State) : Prop :=
  match event with
  | none => t.phase = s.phase
  | some .reset => t.phase = .idle
  | some (.command word) =>
    match decodeWord word with
    | .ok .srst => t.phase = .idle
    | .ok (.begin w h) =>
      if s.phase = .fault then t.phase = .fault
      else t.phase = .fault ∨
        (w.toNat * h.toNat = 0 ∧ t.phase = .ready) ∨ (0 < w.toNat * h.toNat ∧ t.phase = .build)
    | .ok (.pixel _ _ _ _) =>
      if s.phase = .build then
        t.phase = .fault ∨ (t.n.toNat = area s ∧ t.phase = .ready) ∨
          (t.n.toNat < area s ∧ t.phase = .build)
      else t.phase = .fault
    | .ok .encode => if s.phase = .ready then t.phase = .fault ∨ t.phase = .encoded else t.phase = .fault
    | .ok (.rdpal _) => t.phase = s.phase ∨ t.phase = .fault
    | .ok (.rdidx _ _) => t.phase = s.phase ∨ t.phase = .fault
    | .ok (.rdbpl _) => t.phase = s.phase ∨ t.phase = .fault
    | .ok .rdstat => t.phase = s.phase
    | .ok .rdfinfo => t.phase = s.phase
    | .error _ => t.phase = .fault

/-! ### Reference functions for whole images -/

/-- The distinct colors of a stream in first-occurrence order (R108 item 4). -/
def firstOccurrences : List Color → List Color
  | [] => []
  | c :: rest => c :: (firstOccurrences rest).filter (· ≠ c)

/-- An input pixel: channels R, G, B, A (R82). -/
abbrev Pixel := Channel × Channel × Channel × Channel

/-- The PIXEL command of a pixel (R74). -/
def pixelCommand (p : Pixel) : Instr := .pixel p.1 p.2.1 p.2.2.1 p.2.2.2

/-- The Quantized Color of a pixel (R100). -/
def pixelColor (p : Pixel) : Color := quantize p.1 p.2.1 p.2.2.1

/-- The palette index that the bitplane buffer encodes for pixel `(x, y)`: the sum of R129 over the planes
`0 .. k-1`, each plane's bit read MSB-first from byte `x div 8` (R54). -/
def unpackIndex (s : State) (x y : Nat) : Nat → Option Nat
  | 0 => some 0
  | k + 1 =>
    match unpackIndex s x y k,
        Memory.read s.bpl (bplOffset s.np.toNat (byteWidth s.w.toNat) y k (x / 8)) with
    | some low, some v => some (low + ((v.getLsbD (7 - x % 8)).toNat <<< k))
    | _, _ => none

end Sys2Proof.Machine
end

