-- ==== Sys2Proof/Certificates/Slice0/Obligations.lean ====
section
/-! DEFINITION. What is claimed of the QP, rule by rule of spec/. Where a statement assumes `Inv`, the invariant of
spec/10_state.md R35, the cases it shuts out are states that no run from reset reaches. -/

open Sys2Proof Sys2Proof.Machine

/-! ### Encoding and decoding -/

/-- R79: the decoder accepts exactly the words that a row of the table matches, the row names the command, and at
most one row matches a word. -/
def Obligations.DecoderAcceptsExactlyTheLegalWords : Prop :=
  ∀ word : CommandWord,
    (legalWord word = true ↔ ∃ i, decodeWord word = .ok i) ∧
    (∀ i row, decodeWord word = .ok i → row ∈ opcodeRows → row.matchesWord word = true →
      row.mnemonic = i.mnemonic) ∧
    (∀ row row', row ∈ opcodeRows → row' ∈ opcodeRows → row.matchesWord word = true →
      row'.matchesWord word = true → row = row')

/-- R71-R78, R172: a word decodes to a command exactly when it is that command's encoding, so decode and encode
agree in both directions and one command has exactly one encoding. -/
def Obligations.CommandHasExactlyOneEncoding : Prop :=
  ∀ (word : CommandWord) (i : Instr), decodeWord word = .ok i ↔ word = encode i

/-- R72, R172: an unassigned opcode and a nonzero reserved bit are each rejected under their own name. -/
def Obligations.IllegalWordsAreRejectedByName : Prop :=
  ∀ word : CommandWord,
    (decodeWord word = .error .unassignedOpcode ↔
      word.extractLsb' 56 8 ∉ [0x01, 0x02, 0x03, 0x04, 0x05, 0x06, 0x07, 0x08, (0x0F : BitVec 8)]) ∧
    (decodeWord word = .error .reservedBitsSet ↔
      word.extractLsb' 56 8 ∈ [0x01, 0x02, 0x03, 0x04, 0x05, 0x06, 0x07, 0x08, (0x0F : BitVec 8)] ∧
        legalWord word = false)

/-- Words of spec/95_test_vectors.md decode to the commands they are listed for. -/
def Obligations.ListedWordsDecodeToTheirCommands : Prop :=
  decodeWord 0x0100000000090002 = .ok (.begin 9 2) ∧
  decodeWord 0x02000000123456FF = .ok (.pixel 0x12 0x34 0x56 0xFF) ∧
  decodeWord 0x0300000000000000 = .ok .encode ∧
  decodeWord 0x0400000000000001 = .ok (.rdpal 1) ∧
  decodeWord 0x0500000000010000 = .ok (.rdidx 1 0) ∧
  decodeWord 0x0600000000000000 = .ok (.rdbpl 0) ∧
  decodeWord 0x0700000000000000 = .ok .rdstat ∧
  decodeWord 0x0800000000000000 = .ok .rdfinfo ∧
  decodeWord 0x0F00000000000000 = .ok .srst

/-- R86, R87: an assembly command assembles exactly when its operands are in range, and its word then decodes to
a command with those operands; three-operand PIXEL has alpha 255. -/
def Obligations.AssembledWordCarriesItsOperands : Prop :=
  (∀ w h word, assemble (.begin w h) = .ok word ↔ ∃ w' h' : BitVec 16,
    w'.toNat = w ∧ h'.toNat = h ∧ decodeWord word = .ok (.begin w' h')) ∧
  (∀ r g b a word, assemble (.pixel r g b a) = .ok word ↔ ∃ r' g' b' a' : Channel,
    r'.toNat = r ∧ g'.toNat = g ∧ b'.toNat = b ∧ a'.toNat = a ∧
      decodeWord word = .ok (.pixel r' g' b' a')) ∧
  (∀ r g b word, assemble (.pixelOpaque r g b) = .ok word ↔ ∃ r' g' b' : Channel,
    r'.toNat = r ∧ g'.toNat = g ∧ b'.toNat = b ∧ decodeWord word = .ok (.pixel r' g' b' 255)) ∧
  (∀ i word, assemble (.rdpal i) = .ok word ↔ ∃ i' : PaletteIndex,
    i'.toNat = i ∧ decodeWord word = .ok (.rdpal i')) ∧
  (∀ x y word, assemble (.rdidx x y) = .ok word ↔ ∃ x' y' : BitVec 16,
    x'.toNat = x ∧ y'.toNat = y ∧ decodeWord word = .ok (.rdidx x' y')) ∧
  (∀ off word, assemble (.rdbpl off) = .ok word ↔ ∃ off' : Word32,
    off'.toNat = off ∧ decodeWord word = .ok (.rdbpl off')) ∧
  (∀ word, assemble .encode = .ok word ↔ decodeWord word = .ok .encode) ∧
  (∀ word, assemble .rdstat = .ok word ↔ decodeWord word = .ok .rdstat) ∧
  (∀ word, assemble .rdfinfo = .ok word ↔ decodeWord word = .ok .rdfinfo) ∧
  (∀ word, assemble .srst = .ok word ↔ decodeWord word = .ok .srst)

/-! ### The step -/

/-- R170: a step takes the oldest word from the port; when it spells a command, the step is that command's
meaning on the state without the word. -/
def Obligations.StepRunsTheDecodedCommand : Prop :=
  ∀ (s : State) (word : CommandWord) (rest : List PortEvent) (i : Instr),
    s.port = .command word :: rest → decodeWord word = .ok i →
      step s = exec i { s with port := rest }

/-- A word the host presents is the one the next step performs, and the step leaves the rest of the stream in
place (the model's port, log entries 1 and 2). -/
def Obligations.PresentedCommandIsPerformedNext : Prop :=
  ∀ (s : State) (i : Instr), step (s.withFetchWord 64 (encode i).toNat) = exec i s

/-- R60: a step consumes exactly the oldest event, and nothing changes the parameters. That both stand in State is
the model's choice (log entries 1 and 3). -/
def Obligations.StepConsumesTheOldestEvent : Prop :=
  ∀ s t : State, step s = .next t → t.port = s.port.tail ∧ t.cfg = s.cfg

/-- R171: an illegal word outside FAULT raises IllegalCommand with its opcode byte, and nothing else changes. -/
def Obligations.IllegalWordRaisesIllegalCommand : Prop :=
  ∀ (s : State) (word : CommandWord) (rest : List PortEvent),
    s.port = .command word :: rest → s.phase ≠ .fault → legalWord word = false →
      step s = .next { s with
        port := rest
        phase := .fault
        fcode := .illegalCommand
        finfo := (word.extractLsb' 56 8).setWidth 32 }

/-- R173: in FAULT every word but SRST, RDSTAT and RDFINFO, illegal words included, changes nothing. -/
def Obligations.FaultPhaseIgnoresEveryOtherCommand : Prop :=
  ∀ (s : State) (word : CommandWord) (rest : List PortEvent),
    s.port = .command word :: rest → s.phase = .fault →
    decodeWord word ≠ .ok .srst → decodeWord word ≠ .ok .rdstat → decodeWord word ≠ .ok .rdfinfo →
      step s = .next { s with port := rest }

/-- R200: the reset input has exactly the effect of SRST, in every phase. -/
def Obligations.ResetInputHasTheEffectOfSrst : Prop :=
  ∀ (s : State) (rest : List PortEvent), s.port = .reset :: rest →
    step s = exec .srst { s with port := rest }

/-! ### The Palette Builder -/

/-- R100: QUANTIZE keeps the upper nibble of each channel. -/
def Obligations.QuantizeDividesChannelsBySixteen : Prop :=
  ∀ r g b : Channel,
    (quantize r g b).toNat = r.toNat / 16 * 256 + g.toNat / 16 * 16 + b.toNat / 16

/-- R101: pixels that differ only in alpha or in low nibbles have the same effect. -/
def Obligations.PixelIgnoresAlphaAndLowNibbles : Prop :=
  ∀ (s : State) (r g b a r' g' b' a' : Channel),
    r.toNat / 16 = r'.toNat / 16 → g.toNat / 16 = g'.toNat / 16 → b.toNat / 16 = b'.toNat / 16 →
      exec (.pixel r g b a) s = exec (.pixel r' g' b' a') s

/-- R102: LOOKUP is the least live index that holds the color, or none. -/
def Obligations.LookupIsTheLeastMatchingLiveIndex : Prop :=
  ∀ (s : State) (c : Color), s.pcount.toNat ≤ 16 →
    (∀ i : PaletteIndex, lookup s c = some i ↔
      i.toNat < s.pcount.toNat ∧ palEntry s i = c ∧
        ∀ j : PaletteIndex, j.toNat < i.toNat → palEntry s j ≠ c) ∧
    (lookup s c = none ↔ ∀ i : PaletteIndex, i.toNat < s.pcount.toNat → palEntry s i ≠ c)

/-- R104: BEGIN's encoding, its phases, its fault and its effect. -/
def Obligations.BeginOpensAnImage : Prop :=
  ∀ (s : State) (w h : BitVec 16),
    encode (.begin w h) = (0x01#8 ++ 0#24 ++ (w ++ h) : BitVec 64) ∧
    (s.phase = .fault → exec (.begin w h) s = .next s) ∧
    (s.phase ≠ .fault → (s.cfg.maxW < w.toNat ∨ s.cfg.maxH < h.toNat) →
      exec (.begin w h) s =
        .next { s with phase := .fault, fcode := .capacityExceeded, finfo := 0x01 }) ∧
    (s.phase ≠ .fault → w.toNat ≤ s.cfg.maxW → h.toNat ≤ s.cfg.maxH →
      exec (.begin w h) s = .next { s with
        w := w
        h := h
        n := 0
        pcount := 0
        np := 0
        phase := if w.toNat * h.toNat = 0 then .ready else .build })

/-- R107: PIXEL's encoding, its phases, its faults and its effect for a known and for a new color. -/
def Obligations.PixelAcceptsTheNextPixel : Prop :=
  ∀ (s : State) (r g b a : Channel),
    encode (.pixel r g b a) = (0x02#8 ++ 0#24 ++ (r ++ g ++ b ++ a) : BitVec 64) ∧
    (s.phase = .fault → exec (.pixel r g b a) s = .next s) ∧
    (s.phase ≠ .fault → s.phase ≠ .build →
      exec (.pixel r g b a) s =
        .next { s with phase := .fault, fcode := .sequenceError, finfo := 0x02 }) ∧
    (s.phase = .build → s.pcount = 16 → (∀ i : PaletteIndex, palEntry s i ≠ quantize r g b) →
      exec (.pixel r g b a) s =
        .next { s with phase := .fault, fcode := .paletteOverflow, finfo := s.n }) ∧
    (Inv s → s.phase = .build → ∀ i : PaletteIndex, i.toNat < s.pcount.toNat →
      palEntry s i = quantize r g b →
        exec (.pixel r g b a) s = .next { s with
          idx := Memory.write s.idx s.n.toNat i
          n := s.n + 1
          phase := if s.n.toNat + 1 = s.w.toNat * s.h.toNat then .ready else .build }) ∧
    (Inv s → s.phase = .build → s.pcount.toNat < 16 →
      (∀ i : PaletteIndex, i.toNat < s.pcount.toNat → palEntry s i ≠ quantize r g b) →
        exec (.pixel r g b a) s = .next { s with
          pal := s.pal.setIfInBounds s.pcount.toNat (quantize r g b)
          pcount := s.pcount + 1
          idx := Memory.write s.idx s.n.toNat (s.pcount.setWidth 4)
          n := s.n + 1
          phase := if s.n.toNat + 1 = s.w.toNat * s.h.toNat then .ready else .build })

/-- R106: a PIXEL overflows exactly when its color is not live and the palette is full, and it never takes
another color's index instead. -/
def Obligations.PixelOverflowsExactlyOnASeventeenthColor : Prop :=
  ∀ (s : State) (r g b a : Channel), Inv s → s.phase = .build →
    ∃ t, exec (.pixel r g b a) s = .next t ∧
      (t.fcode = .paletteOverflow ↔ quantize r g b ∉ livePal s ∧ s.pcount = 16) ∧
      (t.fcode = .paletteOverflow ∨
        ∃ i ∈ Memory.read t.idx s.n.toNat, i.toNat < t.pcount.toNat ∧ palEntry t i = quantize r g b)

/-- PIXEL's frame: of memory it changes at most the index cell of the pixel cursor; of the palette at most the
entry at the fill count; a faulting PIXEL changes neither. -/
def Obligations.PixelFrame : Prop :=
  ∀ (s t : State) (r g b a : Channel), exec (.pixel r g b a) s = .next t →
    (∀ k, k ≠ s.n.toNat → Memory.read t.idx k = Memory.read s.idx k) ∧
    (∀ o, Memory.read t.bpl o = Memory.read s.bpl o) ∧
    (∀ i : PaletteIndex, i.toNat ≠ s.pcount.toNat → palEntry t i = palEntry s i) ∧
    t.w = s.w ∧ t.h = s.h ∧ t.np = s.np ∧ t.resp = s.resp ∧ t.cfg = s.cfg ∧ t.port = s.port ∧
    (t.phase ≠ .fault → t.fcode = s.fcode ∧ t.finfo = s.finfo) ∧
    (t.phase = .fault → t.idx = s.idx ∧ t.pal = s.pal ∧ t.pcount = s.pcount ∧ t.n = s.n)

/-- R24: once live, a palette entry keeps its index and its color until BEGIN or a reset: every other command
leaves the live palette as it was or extends it at its end. -/
def Obligations.LivePaletteOnlyGrowsAtItsEnd : Prop :=
  ∀ (s t : State) (i : Instr), Inv s → exec i s = .next t →
    (∀ w h, i ≠ .begin w h) → i ≠ .srst → livePal s <+: livePal t

/-- R108 items 1, 2, 4 and 5: from a freshly opened image, a whole raster with at most 16 distinct Quantized Colors
ends in READY, its palette is the distinct colors in first-occurrence order, and every pixel's index names its
color. -/
def Obligations.PaletteHoldsFirstOccurrencesInOrder : Prop :=
  ∀ (s : State) (pixels : List Pixel), Inv s → s.phase = .build → s.n = 0 →
    pixels.length = s.w.toNat * s.h.toNat →
    (firstOccurrences (pixels.map pixelColor)).length ≤ 16 →
      ∃ t, runCommands (pixels.map pixelCommand) s = .next t ∧ t.phase = .ready ∧
        livePal t = firstOccurrences (pixels.map pixelColor) ∧
        ∀ k c, (pixels.map pixelColor)[k]? = some c →
          ∃ v ∈ Memory.read t.idx k, (livePal t)[v.toNat]? = some c

/-- R108 item 3, Scenario B: the pixel that brings the 17th distinct color raises PaletteOverflow with its number,
and the rest of the stream is ignored. -/
def Obligations.SeventeenthColorRaisesPaletteOverflow : Prop :=
  ∀ (s : State) (pixels : List Pixel) (k : Nat), Inv s → s.phase = .build → s.n = 0 →
    pixels.length ≤ s.w.toNat * s.h.toNat → k < pixels.length →
    (firstOccurrences ((pixels.map pixelColor).take k)).length = 16 →
    (firstOccurrences ((pixels.map pixelColor).take (k + 1))).length = 17 →
      ∃ t, runCommands (pixels.map pixelCommand) s = .next t ∧ t.phase = .fault ∧
        t.fcode = .paletteOverflow ∧ t.finfo.toNat = k ∧
        livePal t = firstOccurrences ((pixels.map pixelColor).take k)

/-! ### The Bitplane Encoder -/

/-- R10: bitlength is the number of binary digits. -/
def Obligations.BitlengthCountsBinaryDigits : Prop :=
  bitlength 0 = 0 ∧
  ∀ v, 1 ≤ v → v < 2 ^ bitlength v ∧ (∀ n, v < 2 ^ n → bitlength v ≤ n) ∧
    bitlength v = Nat.log2 v + 1

/-- R121: the plane count's table, and its agreement with both formulas of the source for 2..16. -/
def Obligations.PlanesFollowTheTable : Prop :=
  (∀ policy, planes policy 0 = .error .emptyImage) ∧
  planes .onePlane 1 = .ok 1 ∧ planes .fault 1 = .error .singleColorUndefined ∧
  ∀ policy count, 2 ≤ count → count ≤ 16 →
    planes policy count = .ok (bitlength (count - 1)) ∧
    bitlength (count - 1) = Nat.clog 2 count ∧
    bitlength (count - 1) = (if count = 2 then 1 else if count ≤ 4 then 2 else if count ≤ 8 then 3 else 4)

/-- R122: the palette word is the color under four zero bits, and its three nibbles are the channels. -/
def Obligations.PaletteWordRoundTrips : Prop :=
  ∀ r g b : BitVec 4,
    (palWord (r ++ g ++ b)).toNat = r.toNat <<< 8 ||| g.toNat <<< 4 ||| b.toNat ∧
    (palWord (r ++ g ++ b) >>> 8) &&& 0xF = r.setWidth 16 ∧
    (palWord (r ++ g ++ b) >>> 4) &&& 0xF = g.setWidth 16 ∧
    palWord (r ++ g ++ b) &&& 0xF = b.setWidth 16

/-- R123, R124: bit `j` of a packed byte is plane `p` of the pixel at column `8b + (7 - j)`, and 0 at or past the
image's width; on a complete raster every byte can be packed. -/
def Obligations.PackedByteHoldsPlaneBitsLeftmostFirst : Prop :=
  ∀ (s : State) (y p b : Nat),
    (∀ v, packByte s y p b = .ok v → ∀ j, j < 8 →
      (8 * b + (7 - j) < s.w.toNat →
        ∃ i ∈ Memory.read s.idx (y * s.w.toNat + (8 * b + (7 - j))), v.getLsbD j = i.getLsbD p) ∧
      (s.w.toNat ≤ 8 * b + (7 - j) → v.getLsbD j = false)) ∧
    (Inv s → s.phase = .ready ∨ s.phase = .encoded → y < s.h.toNat →
      ∃ v, packByte s y p b = .ok v)

/-- R126: ENCODE's encoding, its phases, its faults and its effect. -/
def Obligations.EncodePacksTheBitplaneBuffer : Prop :=
  ∀ s : State,
    encode .encode = 0x0300000000000000 ∧
    (s.phase = .fault → exec .encode s = .next s) ∧
    (s.phase ≠ .fault → s.phase ≠ .ready →
      exec .encode s = .next { s with phase := .fault, fcode := .sequenceError, finfo := 0x03 }) ∧
    (s.phase = .ready → s.pcount = 0 →
      exec .encode s = .next { s with phase := .fault, fcode := .emptyImage, finfo := 0 }) ∧
    (s.phase = .ready → s.pcount = 1 → s.cfg.policy = .fault →
      exec .encode s = .next { s with phase := .fault, fcode := .singleColorUndefined, finfo := 0 }) ∧
    (Inv s → s.phase = .ready → s.pcount ≠ 0 → ¬(s.pcount = 1 ∧ s.cfg.policy = .fault) →
      ∃ np t, planes s.cfg.policy s.pcount.toNat = .ok np ∧ 1 ≤ np ∧ np ≤ 4 ∧
        exec .encode s = .next t ∧
        t = { s with np := BitVec.ofNat 3 np, phase := .encoded, bpl := t.bpl } ∧
        (∀ y p b, y < s.h.toNat → p < np → b < (s.w.toNat + 7) / 8 →
          ∃ v ∈ Memory.read t.bpl ((y * np + p) * ((s.w.toNat + 7) / 8) + b),
            packByte s y p b = .ok v) ∧
        (∀ o, (s.w.toNat + 7) / 8 * s.h.toNat * np ≤ o →
          Memory.read t.bpl o = Memory.read s.bpl o))

/-- ENCODE's frame: the index RAM is unchanged; of the bitplane RAM only the bytes at the offsets of the new buffer
change, and none when ENCODE does not succeed; every register but the plane count and the phase (or, on a fault,
the fault record and the phase) is unchanged. -/
def Obligations.EncodeFrame : Prop :=
  ∀ s t : State, exec .encode s = .next t →
    (∀ k, Memory.read t.idx k = Memory.read s.idx k) ∧
    (∀ o, (∀ y p b, y < s.h.toNat → p < t.np.toNat → b < byteWidth s.w.toNat →
        bplOffset t.np.toNat (byteWidth s.w.toNat) y p b ≠ o) →
      Memory.read t.bpl o = Memory.read s.bpl o) ∧
    t.w = s.w ∧ t.h = s.h ∧ t.n = s.n ∧ t.pcount = s.pcount ∧ t.pal = s.pal ∧ t.resp = s.resp ∧
    t.cfg = s.cfg ∧ t.port = s.port ∧
    (t.phase = .fault → t.bpl = s.bpl ∧ t.np = s.np) ∧
    (t.phase ≠ .fault → t.fcode = s.fcode ∧ t.finfo = s.finfo)

/-- R125: after ENCODE, the low `8*byteWidth(W) - W` bits of the last byte column are 0 in every plane and row,
and there are none when `W` is a multiple of 8. -/
def Obligations.PaddingBitsAreZero : Prop :=
  ∀ s : State, Inv s → s.phase = .encoded →
    (∀ y p, y < s.h.toNat → p < s.np.toNat →
      ∃ v ∈ Memory.read s.bpl
          (bplOffset s.np.toNat (byteWidth s.w.toNat) y p (byteWidth s.w.toNat - 1)),
        ∀ j, j < 8 * byteWidth s.w.toNat - s.w.toNat → v.getLsbD j = false) ∧
    (s.w.toNat % 8 = 0 → 8 * byteWidth s.w.toNat - s.w.toNat = 0)

/-- R127: the offsets of the positions of a buffer are exactly the numbers below its size, each once. -/
def Obligations.OffsetsFillTheBufferExactly : Prop :=
  ∀ h np bw : Nat,
    (∀ y p b, y < h → p < np → b < bw → bplOffset np bw y p b < bw * h * np) ∧
    (∀ o, o < bw * h * np → ∃! q : Nat × Nat × Nat,
      q.1 < h ∧ q.2.1 < np ∧ q.2.2 < bw ∧ bplOffset np bw q.1 q.2.1 q.2.2 = o)

/-- R128: every index is below `2^NP`, so no index bit at position `NP` or above is set. -/
def Obligations.PlanesSufficeForEveryIndex : Prop :=
  ∀ (s : State) (np : Nat), Inv s → planes s.cfg.policy s.pcount.toNat = .ok np →
    ∀ k, k < s.n.toNat → ∃ v ∈ Memory.read s.idx k,
      v.toNat < 2 ^ np ∧ ∀ p, np ≤ p → v.getLsbD p = false

/-- R129: in ENCODED the bitplane buffer gives back the index raster, and every padding bit reads 0. -/
def Obligations.BitplaneBufferGivesBackTheRaster : Prop :=
  ∀ s : State, Inv s → s.phase = .encoded →
    (∀ x y, x < s.w.toNat → y < s.h.toNat →
      ∃ v ∈ Memory.read s.idx (y * s.w.toNat + x), unpackIndex s x y s.np.toNat = some v.toNat) ∧
    (∀ x y p, s.w.toNat ≤ x → x < 8 * byteWidth s.w.toNat → y < s.h.toNat → p < s.np.toNat →
      ∃ v ∈ Memory.read s.bpl (bplOffset s.np.toNat (byteWidth s.w.toNat) y p (x / 8)),
        v.getLsbD (7 - x % 8) = false)

/-! ### Reads -/

/-- R140, R141: RDPAL's encoding, its phases, its faults and its response. -/
def Obligations.RdpalReturnsAddressAndPaletteWord : Prop :=
  ∀ (s : State) (i : PaletteIndex),
    encode (.rdpal i) = (0x04#8 ++ 0#24 ++ (0#28 ++ i) : BitVec 64) ∧
    (s.phase = .fault → exec (.rdpal i) s = .next s) ∧
    (s.phase = .idle ∨ s.phase = .build →
      exec (.rdpal i) s = .next { s with phase := .fault, fcode := .sequenceError, finfo := 0x04 }) ∧
    (s.phase = .ready ∨ s.phase = .encoded → s.pcount.toNat ≤ i.toNat →
      exec (.rdpal i) s = .next { s with phase := .fault, fcode := .rangeError, finfo := 0x04 }) ∧
    (s.phase = .ready ∨ s.phase = .encoded → i.toNat < s.pcount.toNat →
      exec (.rdpal i) s = .next { s with
        resp := BitVec.ofNat 16 (0x180 + 2 * i.toNat) ++ (0#4 ++ palEntry s i) })

/-- R145: RDIDX's encoding, its phases, its faults and its response, which is a live index. -/
def Obligations.RdidxReturnsTheIndexCell : Prop :=
  ∀ (s : State) (x y : BitVec 16),
    encode (.rdidx x y) = (0x05#8 ++ 0#24 ++ (x ++ y) : BitVec 64) ∧
    (s.phase = .fault → exec (.rdidx x y) s = .next s) ∧
    (s.phase = .idle ∨ s.phase = .build →
      exec (.rdidx x y) s =
        .next { s with phase := .fault, fcode := .sequenceError, finfo := 0x05 }) ∧
    (s.phase = .ready ∨ s.phase = .encoded → s.w.toNat ≤ x.toNat ∨ s.h.toNat ≤ y.toNat →
      exec (.rdidx x y) s = .next { s with phase := .fault, fcode := .rangeError, finfo := 0x05 }) ∧
    (Inv s → s.phase = .ready ∨ s.phase = .encoded → x.toNat < s.w.toNat → y.toNat < s.h.toNat →
      ∃ v ∈ Memory.read s.idx (y.toNat * s.w.toNat + x.toNat), v.toNat < s.pcount.toNat ∧
        exec (.rdidx x y) s = .next { s with resp := v.setWidth 32 })

/-- R147: RDBPL's encoding, its phases, its faults and its response, the packed byte of the offset's row, plane and
column. -/
def Obligations.RdbplReturnsTheBufferByte : Prop :=
  ∀ (s : State) (off : Word32),
    encode (.rdbpl off) = (0x06#8 ++ 0#24 ++ off : BitVec 64) ∧
    (s.phase = .fault → exec (.rdbpl off) s = .next s) ∧
    (s.phase ≠ .fault → s.phase ≠ .encoded →
      exec (.rdbpl off) s =
        .next { s with phase := .fault, fcode := .sequenceError, finfo := 0x06 }) ∧
    (s.phase = .encoded → (s.w.toNat + 7) / 8 * s.h.toNat * s.np.toNat ≤ off.toNat →
      exec (.rdbpl off) s = .next { s with phase := .fault, fcode := .rangeError, finfo := 0x06 }) ∧
    (Inv s → s.phase = .encoded → off.toNat < (s.w.toNat + 7) / 8 * s.h.toNat * s.np.toNat →
      ∃ v ∈ Memory.read s.bpl off.toNat,
        packByte s (off.toNat / (s.np.toNat * ((s.w.toNat + 7) / 8)))
          (off.toNat / ((s.w.toNat + 7) / 8) % s.np.toNat)
          (off.toNat % ((s.w.toNat + 7) / 8)) = .ok v ∧
        exec (.rdbpl off) s = .next { s with resp := v.setWidth 32 })

/-- R150: RDSTAT's encoding and its response, field by field, in every phase. -/
def Obligations.RdstatReturnsTheStatusWord : Prop :=
  encode .rdstat = 0x0700000000000000 ∧
  ∀ s : State, ∃ v : Word32, exec .rdstat s = .next { s with resp := v } ∧
    v.extractLsb' 0 4 = s.phase.code ∧ v.extractLsb' 4 4 = s.fcode.code ∧
    v.extractLsb' 8 5 = s.pcount ∧ v.extractLsb' 13 3 = 0 ∧ v.extractLsb' 16 3 = s.np ∧
    v.extractLsb' 19 13 = 0

/-- R29, R181: the values of the phases and of the fault codes. -/
def Obligations.PhaseAndFaultCodeValues : Prop :=
  [Phase.idle, .build, .ready, .encoded, .fault].map Phase.code = [0, 1, 2, 3, 4] ∧
  [FaultCode.none, .paletteOverflow, .emptyImage, .singleColorUndefined, .illegalCommand,
    .sequenceError, .rangeError, .capacityExceeded].map FaultCode.code = [0, 1, 2, 3, 4, 5, 6, 7]

/-- R152: RDFINFO's encoding and its response, in every phase. -/
def Obligations.RdfinfoReturnsTheFaultInformation : Prop :=
  encode .rdfinfo = 0x0800000000000000 ∧
  ∀ s : State, exec .rdfinfo s = .next { s with resp := s.finfo }

/-- R57: a read changes nothing but the response, or, when it faults, nothing but the fault record and the phase;
and the same read again changes nothing more. -/
def Obligations.ReadsChangeOnlyTheResponseAndAreIdempotent : Prop :=
  ∀ (s t : State) (i : Instr), exec i s = .next t →
    (i = .rdstat ∨ i = .rdfinfo ∨ (∃ k, i = .rdpal k) ∨ (∃ x y, i = .rdidx x y) ∨
      ∃ off, i = .rdbpl off) →
    (t = { s with resp := t.resp } ∨
      t = { s with phase := .fault, fcode := t.fcode, finfo := t.finfo }) ∧
    exec i t = .next t

/-! ### Reset -/

/-- R174, R201: SRST's encoding and its effect, in every phase; the status word then reads 0. -/
def Obligations.SrstClearsEveryRegister : Prop :=
  encode .srst = 0x0F00000000000000 ∧
  ∀ s : State, ∃ t, exec .srst s = .next t ∧
    t = { s with
      phase := .idle
      fcode := .none
      finfo := 0
      w := 0
      h := 0
      n := 0
      pcount := 0
      pal := Vector.replicate 16 0
      np := 0
      resp := 0 } ∧
    statusWord t = 0

/-- R201: every register of the state after reset is 0. That no RAM cell holds a value then is the model's choice
(log entry 4). -/
def Obligations.ResetStateIsClear : Prop :=
  State.reset.phase = .idle ∧ State.reset.fcode = .none ∧ State.reset.finfo = 0 ∧
  State.reset.w = 0 ∧ State.reset.h = 0 ∧ State.reset.n = 0 ∧ State.reset.pcount = 0 ∧
  State.reset.np = 0 ∧ State.reset.resp = 0 ∧ (∀ i, palEntry State.reset i = 0) ∧
  (∀ k, Memory.read State.reset.idx k = none) ∧ (∀ o, Memory.read State.reset.bpl o = none)

/-- R202: whatever the registers hold before the first reset, SRST brings the QP to a state that meets the
invariant. `PowerOn`, the premise, is the model's (log entry 7). -/
def Obligations.SrstEstablishesTheInvariant : Prop :=
  ∀ s : State, PowerOn s → ∃ t, exec .srst s = .next t ∧ Inv t ∧ t.phase = .idle

/-! ### Faults and phases -/

/-- R183: raising a fault writes the phase and the fault record, and nothing else. -/
def Obligations.FaultEntryWritesOnlyTheFaultRecord : Prop :=
  ∀ s t : State, step s = .next t → s.phase ≠ .fault → t.phase = .fault →
    t.fcode ≠ .none ∧
    t = { s with phase := .fault, fcode := t.fcode, finfo := t.finfo, port := s.port.tail }

/-- R181, R182: the command, the condition and the information of each fault code. -/
def Obligations.FaultRecordNamesCauseAndPlace : Prop :=
  ∀ (s t : State) (i : Instr), exec i s = .next t → s.phase ≠ .fault → t.phase = .fault →
    match t.fcode with
    | .none => False
    | .paletteOverflow => (∃ r g b a, i = .pixel r g b a ∧ quantize r g b ∉ livePal s) ∧
        s.phase = .build ∧ s.pcount = 16 ∧ t.finfo = s.n
    | .emptyImage => i = .encode ∧ s.phase = .ready ∧ s.pcount = 0 ∧ t.finfo = 0
    | .singleColorUndefined => i = .encode ∧ s.phase = .ready ∧ s.pcount = 1 ∧
        s.cfg.policy = .fault ∧ t.finfo = 0
    | .illegalCommand => False
    | .sequenceError => t.finfo = (opcodeOf i).setWidth 32 ∧
        match i with
        | .pixel _ _ _ _ => s.phase ≠ .build
        | .encode => s.phase ≠ .ready
        | .rdpal _ => s.phase ≠ .ready ∧ s.phase ≠ .encoded
        | .rdidx _ _ => s.phase ≠ .ready ∧ s.phase ≠ .encoded
        | .rdbpl _ => s.phase ≠ .encoded
        | .begin _ _ => False
        | .rdstat => False
        | .rdfinfo => False
        | .srst => False
    | .rangeError => t.finfo = (opcodeOf i).setWidth 32 ∧
        match i with
        | .rdpal k => s.pcount.toNat ≤ k.toNat
        | .rdidx x y => s.w.toNat ≤ x.toNat ∨ s.h.toNat ≤ y.toNat
        | .rdbpl off => bplSize s ≤ off.toNat
        | .begin _ _ => False
        | .pixel _ _ _ _ => False
        | .encode => False
        | .rdstat => False
        | .rdfinfo => False
        | .srst => False
    | .capacityExceeded => t.finfo = 0x01 ∧
        ∃ w h, i = .begin w h ∧ (s.cfg.maxW < w.toNat ∨ s.cfg.maxH < h.toNat)

/-- R185: FAULT is left only by SRST or the reset input, which discard the image; until then the first fault is the
one recorded. -/
def Obligations.FaultIsLeftOnlyByReset : Prop :=
  ∀ s t : State, step s = .next t → s.phase = .fault →
    (t.phase = .fault ∧ t.fcode = s.fcode ∧ t.finfo = s.finfo) ∨
    ((s.port.head? = some .reset ∨
        ∃ word, s.port.head? = some (.command word) ∧ decodeWord word = .ok .srst) ∧
      t.phase = .idle ∧ t.fcode = .none ∧ t.w = 0 ∧ t.h = 0 ∧ t.n = 0 ∧ t.pcount = 0)

/-- R30: the phase changes only as the table says; an idle port (log entry 1) changes nothing. -/
def Obligations.PhaseChangesFollowTheTable : Prop :=
  ∀ s t : State, Inv s → step s = .next t → phaseChangeAllowed s.port.head? s t

/-- R22, R32, R50: each register and each RAM is changed only by the commands that may write it. -/
def Obligations.StateIsWrittenOnlyByItsCommands : Prop :=
  ∀ (s t : State) (i : Instr), exec i s = .next t →
    (t.phase ≠ s.phase → t.phase = .fault ∨ i.mnemonic ∈ ["BEGIN", "PIXEL", "ENCODE", "SRST"]) ∧
    (t.fcode ≠ s.fcode ∨ t.finfo ≠ s.finfo → t.phase = .fault ∨ i = .srst) ∧
    (t.w ≠ s.w ∨ t.h ≠ s.h → i.mnemonic ∈ ["BEGIN", "SRST"]) ∧
    (t.n ≠ s.n ∨ t.pcount ≠ s.pcount → i.mnemonic ∈ ["BEGIN", "PIXEL", "SRST"]) ∧
    (t.pal ≠ s.pal → i.mnemonic ∈ ["PIXEL", "SRST"]) ∧
    (t.np ≠ s.np → i.mnemonic ∈ ["BEGIN", "ENCODE", "SRST"]) ∧
    (t.resp ≠ s.resp → i.mnemonic ∈ ["RDPAL", "RDIDX", "RDBPL", "RDSTAT", "RDFINFO", "SRST"]) ∧
    (t.idx ≠ s.idx → i.mnemonic ∈ ["PIXEL"]) ∧
    (t.bpl ≠ s.bpl → i.mnemonic ∈ ["ENCODE"]) ∧
    t.cfg = s.cfg ∧ t.port = s.port

/-- R109: in READY and ENCODED no command but BEGIN and SRST changes the palette, the index raster or the image's
size. -/
def Obligations.CompleteImageIsImmutable : Prop :=
  ∀ (s t : State) (i : Instr), exec i s = .next t → s.phase = .ready ∨ s.phase = .encoded →
    (∀ w h, i ≠ .begin w h) → i ≠ .srst →
      t.pal = s.pal ∧ t.pcount = s.pcount ∧ t.w = s.w ∧ t.h = s.h ∧ t.n = s.n ∧
      ∀ k, Memory.read t.idx k = Memory.read s.idx k

/-- The frame of the commands that store nothing: neither RAM changes, and BEGIN keeps the palette entries and the
response (R104). -/
def Obligations.RegisterOnlyCommandsFrame : Prop :=
  ∀ (s t : State) (i : Instr), exec i s = .next t → i ≠ .encode → (∀ r g b a, i ≠ .pixel r g b a) →
    (∀ k, Memory.read t.idx k = Memory.read s.idx k) ∧
    (∀ o, Memory.read t.bpl o = Memory.read s.bpl o) ∧
    t.cfg = s.cfg ∧ t.port = s.port ∧
    (i ≠ .srst → t.pal = s.pal) ∧
    ((∃ w h, i = .begin w h) → t.resp = s.resp ∧
      (t.phase ≠ .fault → t.fcode = s.fcode ∧ t.finfo = s.finfo))

/-! ### The invariant -/

/-- R35 holds after reset; `Inv` includes the canonical form of the model's memories (log entries 4 and 5) and the
legality of the model's parameters (log entry 3). -/
def Obligations.ResetStateMeetsTheInvariant : Prop := Inv State.reset

/-- R35 is kept by every step. -/
def Obligations.StepKeepsTheInvariant : Prop :=
  ∀ s t : State, Inv s → step s = .next t → Inv t

/-- R34, D33: from a state that meets the invariant the model never stops: no step reads a cell without a value or
touches one that does not exist. -/
def Obligations.InvariantStatesAlwaysStep : Prop :=
  ∀ s : State, Inv s → ∃ t, step s = .next t

/-- R34: what no rule calls live is never observable: two states that agree on their live parts answer every command
with states that agree on theirs. -/
def Obligations.DeadContentsAreUnobservable : Prop :=
  ∀ (s s' t : State) (i : Instr), Inv s → Inv s' → LiveAgree s s' → exec i s = .next t →
    ∃ t', exec i s' = .next t' ∧ LiveAgree t t'

/-- Two RAMs in the canonical form that read alike are equal, so equal contents are equal data (the model's form
of memory, log entry 4). -/
def Obligations.MemoriesThatReadAlikeAreEqual : Prop :=
  ∀ (w : Nat) (m m' : Memory w), Memory.wf m = true → Memory.wf m' = true →
    (∀ a, Memory.read m a = Memory.read m' a) → m = m'

/-! ### Whole images and the artifacts -/

/-- R203: reset, BEGIN, one PIXEL for each pixel in row-major order, ENCODE: an image of at most 16 distinct Quantized
Colors that fits the QP ends in ENCODED, and the bitplane buffer together with the palette gives back the Quantized
Color of every pixel. -/
def Obligations.WholeImageIsEncodedFaithfully : Prop :=
  ∀ (s : State) (w h : BitVec 16) (pixels : List Pixel), PowerOn s →
    w.toNat ≤ s.cfg.maxW → h.toNat ≤ s.cfg.maxH →
    pixels.length = w.toNat * h.toNat → pixels ≠ [] →
    (firstOccurrences (pixels.map pixelColor)).length ≤ 16 →
    ((firstOccurrences (pixels.map pixelColor)).length = 1 → s.cfg.policy = .onePlane) →
      ∃ t, runCommands (.srst :: .begin w h :: (pixels.map pixelCommand ++ [.encode])) s = .next t ∧
        t.phase = .encoded ∧ livePal t = firstOccurrences (pixels.map pixelColor) ∧
        ∀ k c, (pixels.map pixelColor)[k]? = some c →
          ∃ v, unpackIndex t (pixelColumn t k) (pixelRow t k) t.np.toNat = some v ∧
            (livePal t)[v]? = some c

/-- R161: HEX is the natural lowercase hexadecimal representation. -/
def Obligations.HexIsNaturalLowercase : Prop :=
  ∀ v : BitVec 16,
    (hex v).foldl (fun acc d => acc * 16 +
      (if d.toNat < 0x3A then d.toNat - 0x30 else d.toNat - 0x57)) 0 = v.toNat ∧
    (∀ d ∈ hex v, (0x30 ≤ d.toNat ∧ d.toNat ≤ 0x39) ∨ (0x61 ≤ d.toNat ∧ d.toNat ≤ 0x66)) ∧
    hex v ≠ [] ∧ ((hex v).head? = some 0x30 → hex v = [0x30])

/-- R160, R162: the palette script is one line per live entry, in palette-index order, each built from the response
of RDPAL, which holds the entry's address and word. -/
def Obligations.PaletteScriptComesFromTheReads : Prop :=
  ∀ s : State, Inv s → s.phase = .ready ∨ s.phase = .encoded →
    ∃ lines : List (List Byte), paletteScript s = lines.flatten ∧
      lines.length = s.pcount.toNat ∧
      ∀ i : PaletteIndex, i.toNat < s.pcount.toNat → ∃ t, exec (.rdpal i) s = .next t ∧
        lines[i.toNat]? = some (scriptLine t.resp) ∧
        scriptLine t.resp = [0x09, 0x64, 0x63, 0x2E, 0x77, 0x20, 0x24] ++ hex (paddr i) ++
          [0x2C, 0x24] ++ hex (palWord (palEntry s i)) ++ [0x0A]

/-- R164: the bitplane binary has `byteWidth * height * numBitPlanes` bytes, and each is what RDBPL returns for its
offset. -/
def Obligations.BitplaneBinaryComesFromTheReads : Prop :=
  ∀ s : State, Inv s → s.phase = .encoded →
    ∃ bytes, bitplaneBinary s = some bytes ∧
      bytes.length = (s.w.toNat + 7) / 8 * s.h.toNat * s.np.toNat ∧
      ∀ o : Word32, o.toNat < bytes.length → ∃ v, bytes[o.toNat]? = some v ∧
        exec (.rdbpl o) s = .next { s with resp := v.setWidth 32 }

/-- R165: there are artifacts exactly in ENCODED. -/
def Obligations.ArtifactsExistExactlyInEncoded : Prop :=
  ∀ s : State, Inv s → ((artifacts s).isSome = true ↔ s.phase = .encoded)
end

