-- ==== Sys2Proof/Laws/Decode.lean ====
section
/-! SUPPORT. The fields of a command word and of an encoded command, for proofs about the decoder. -/

namespace Sys2Proof

@[simp] theorem opField_encode (i : Instr) : opField (encode i) = opcodeOf i := by
  simp only [opField, encode]
  ext k hk
  simp only [BitVec.getElem_extractLsb', BitVec.getLsbD_append]
  rw [if_neg (by omega), if_neg (by omega)]
  rw [← BitVec.getLsbD_eq_getElem]
  congr 1
  omega

@[simp] theorem rsvField_encode (i : Instr) : rsvField (encode i) = 0 := by
  simp only [rsvField, encode]
  ext k hk
  simp only [BitVec.getElem_extractLsb', BitVec.getLsbD_append]
  rw [if_neg (by omega), if_pos (by omega)]
  simp

@[simp] theorem operandArea_encode (i : Instr) : operandArea (encode i) = operandsOf i := by
  simp only [operandArea, encode]
  ext k hk
  simp only [BitVec.getElem_extractLsb', BitVec.getLsbD_append]
  rw [if_pos (by omega), ← BitVec.getLsbD_eq_getElem]
  congr 1
  omega

/-- A word is its opcode, its reserved field and its operand area (R71). -/
theorem opField_append_rsvField_append_operandArea (word : CommandWord) :
    opField word ++ rsvField word ++ operandArea word = word := by
  apply BitVec.eq_of_getLsbD_eq
  intro k hk
  simp only [opField, rsvField, operandArea, BitVec.getLsbD_append, BitVec.getLsbD_extractLsb']
  by_cases h1 : k < 32
  · simp [h1]
  · by_cases h2 : k - 32 < 24
    · simp only [h1, h2, if_true, if_false, decide_true, Bool.true_and]
      congr 1
      omega
    · have h3 : k - 32 - 24 < 8 := by omega
      simp only [h1, h2, h3, if_false, decide_true, Bool.true_and]
      congr 1
      omega

section Append

variable {n m : Nat} (x : BitVec n) (y : BitVec m)

/-- The upper part of an append. -/
theorem extractLsb'_append_high : (x ++ y).extractLsb' m n = x := by
  apply BitVec.eq_of_getLsbD_eq
  intro k hk
  simp [BitVec.getLsbD_append, hk]

/-- The lower part of an append. -/
theorem extractLsb'_append_low : (x ++ y).extractLsb' 0 m = y := by
  apply BitVec.eq_of_getLsbD_eq
  intro k hk
  simp [BitVec.getLsbD_append, hk]

/-- A field inside the upper part of an append. -/
theorem extractLsb'_append_above (start len : Nat) :
    (x ++ y).extractLsb' (m + start) len = x.extractLsb' start len := by
  apply BitVec.eq_of_getLsbD_eq
  intro k hk
  simp only [BitVec.getLsbD_extractLsb', hk, decide_true, Bool.true_and, BitVec.getLsbD_append]
  rw [if_neg (by omega)]
  congr 1
  omega

end Append

theorem acceptIf_eq_ok {clear : Bool} {i j : Instr} :
    acceptIf clear i = .ok j ↔ clear = true ∧ j = i := by
  cases clear <;> simp [acceptIf, eq_comm]

end Sys2Proof
end

