-- ==== Sys2Proof/Laws/Memory.lean ====
section
/-! SUPPORT. The laws of the RAMs: read after write, the canonical form, and equality of memories that read
alike. -/

namespace Sys2Proof.Machine.Memory

variable {w : Nat}

@[simp] theorem read_nil (a : Nat) : read ([] : Memory w) a = none := rfl

theorem read_write (m : Memory w) (a b : Nat) (v : BitVec w) :
    read (write m a v) b = if b = a then some v else read m b := by
  induction m with
  | nil => simp only [write, read]; split <;> simp_all [eq_comm]
  | cons e rest ih =>
    obtain ⟨k, u⟩ := e
    simp only [write]
    split
    · simp only [read]; split <;> simp_all [eq_comm]
    · split
      · subst_vars; simp only [read]; split <;> simp_all [eq_comm]
      · simp only [read, ih]; split <;> split <;> simp_all

@[simp] theorem read_write_same (m : Memory w) (a : Nat) (v : BitVec w) :
    read (write m a v) a = some v := by simp [read_write]

theorem read_write_other (m : Memory w) {a b : Nat} (v : BitVec w) (h : b ≠ a) :
    read (write m a v) b = read m b := by simp [read_write, h]

theorem wfFrom_write {m : Memory w} {lo a : Nat} (v : BitVec w) (h : wfFrom lo m = true)
    (ha : lo ≤ a) : wfFrom lo (write m a v) = true := by
  induction m generalizing lo with
  | nil => simp [write, wfFrom, ha]
  | cons e rest ih =>
    obtain ⟨k, u⟩ := e
    simp only [wfFrom, Bool.and_eq_true, decide_eq_true_eq] at h
    simp only [write]
    split
    · simp [wfFrom, ha, h.2]; omega
    · split
      · subst_vars; simp [wfFrom, h]
      · simp only [wfFrom, Bool.and_eq_true, decide_eq_true_eq]
        exact ⟨h.1, ih h.2 (by omega)⟩

/-- Every store keeps the canonical form. -/
theorem wf_write {m : Memory w} (a : Nat) (v : BitVec w) (h : wf m = true) :
    wf (write m a v) = true := wfFrom_write v h (Nat.zero_le a)

/-- A store below the capacity keeps every listed address below the capacity. -/
theorem within_write {cap a : Nat} {m : Memory w} (v : BitVec w) (h : within cap m = true)
    (ha : a < cap) : within cap (write m a v) = true := by
  induction m with
  | nil => simp [within, write, ha]
  | cons e rest ih =>
    obtain ⟨k, u⟩ := e
    simp only [within, List.all_cons, Bool.and_eq_true, decide_eq_true_eq] at h ih
    simp only [write]
    split
    · simpa [within, ha] using h
    · split
      · subst_vars; simpa [within] using h
      · simpa [within, h.1] using ih h.2

theorem read_eq_none_of_lt {m : Memory w} {lo a : Nat} (h : wfFrom lo m = true) (ha : a < lo) :
    read m a = none := by
  induction m generalizing lo with
  | nil => rfl
  | cons e rest ih =>
    obtain ⟨k, u⟩ := e
    simp only [wfFrom, Bool.and_eq_true, decide_eq_true_eq] at h
    simp only [read]
    rw [if_neg (by omega)]
    exact ih h.2 (by omega)

/-- An address at or above the capacity holds no value. -/
theorem read_eq_none_of_within {m : Memory w} {cap a : Nat} (h : within cap m = true)
    (ha : cap ≤ a) : read m a = none := by
  induction m with
  | nil => rfl
  | cons e rest ih =>
    obtain ⟨k, u⟩ := e
    simp only [within, List.all_cons, Bool.and_eq_true, decide_eq_true_eq] at h ih
    simp only [read]
    rw [if_neg (by omega)]
    exact ih h.2

/-- After reset both RAMs have the canonical form. -/
theorem reset_wf : wf State.reset.idx = true ∧ wf State.reset.bpl = true := ⟨rfl, rfl⟩

end Sys2Proof.Machine.Memory
end

