-- ==== Sys2Proof/Laws/State.lean ====
section
/-! SUPPORT. The fields of a state after each named update: one lemma per field per update, so that no later
proof unfolds a record update. -/

namespace Sys2Proof.Machine

/-! ### raiseFault -/

@[simp] theorem raiseFault_phase (code : FaultCode) (info : Word32) (s : State) :
    (raiseFault code info s).phase = .fault := rfl
@[simp] theorem raiseFault_fcode (code : FaultCode) (info : Word32) (s : State) :
    (raiseFault code info s).fcode = code := rfl
@[simp] theorem raiseFault_finfo (code : FaultCode) (info : Word32) (s : State) :
    (raiseFault code info s).finfo = info := rfl
@[simp] theorem raiseFault_w (code : FaultCode) (info : Word32) (s : State) :
    (raiseFault code info s).w = s.w := rfl
@[simp] theorem raiseFault_h (code : FaultCode) (info : Word32) (s : State) :
    (raiseFault code info s).h = s.h := rfl
@[simp] theorem raiseFault_n (code : FaultCode) (info : Word32) (s : State) :
    (raiseFault code info s).n = s.n := rfl
@[simp] theorem raiseFault_pcount (code : FaultCode) (info : Word32) (s : State) :
    (raiseFault code info s).pcount = s.pcount := rfl
@[simp] theorem raiseFault_pal (code : FaultCode) (info : Word32) (s : State) :
    (raiseFault code info s).pal = s.pal := rfl
@[simp] theorem raiseFault_np (code : FaultCode) (info : Word32) (s : State) :
    (raiseFault code info s).np = s.np := rfl
@[simp] theorem raiseFault_resp (code : FaultCode) (info : Word32) (s : State) :
    (raiseFault code info s).resp = s.resp := rfl
@[simp] theorem raiseFault_idx (code : FaultCode) (info : Word32) (s : State) :
    (raiseFault code info s).idx = s.idx := rfl
@[simp] theorem raiseFault_bpl (code : FaultCode) (info : Word32) (s : State) :
    (raiseFault code info s).bpl = s.bpl := rfl
@[simp] theorem raiseFault_cfg (code : FaultCode) (info : Word32) (s : State) :
    (raiseFault code info s).cfg = s.cfg := rfl
@[simp] theorem raiseFault_port (code : FaultCode) (info : Word32) (s : State) :
    (raiseFault code info s).port = s.port := rfl

/-! ### respond -/

@[simp] theorem respond_phase (v : Word32) (s : State) : (respond v s).phase = s.phase := rfl
@[simp] theorem respond_fcode (v : Word32) (s : State) : (respond v s).fcode = s.fcode := rfl
@[simp] theorem respond_finfo (v : Word32) (s : State) : (respond v s).finfo = s.finfo := rfl
@[simp] theorem respond_w (v : Word32) (s : State) : (respond v s).w = s.w := rfl
@[simp] theorem respond_h (v : Word32) (s : State) : (respond v s).h = s.h := rfl
@[simp] theorem respond_n (v : Word32) (s : State) : (respond v s).n = s.n := rfl
@[simp] theorem respond_pcount (v : Word32) (s : State) : (respond v s).pcount = s.pcount := rfl
@[simp] theorem respond_pal (v : Word32) (s : State) : (respond v s).pal = s.pal := rfl
@[simp] theorem respond_np (v : Word32) (s : State) : (respond v s).np = s.np := rfl
@[simp] theorem respond_resp (v : Word32) (s : State) : (respond v s).resp = v := rfl
@[simp] theorem respond_idx (v : Word32) (s : State) : (respond v s).idx = s.idx := rfl
@[simp] theorem respond_bpl (v : Word32) (s : State) : (respond v s).bpl = s.bpl := rfl
@[simp] theorem respond_cfg (v : Word32) (s : State) : (respond v s).cfg = s.cfg := rfl
@[simp] theorem respond_port (v : Word32) (s : State) : (respond v s).port = s.port := rfl

/-! ### resetRegisters -/

@[simp] theorem resetRegisters_phase (s : State) : (resetRegisters s).phase = .idle := rfl
@[simp] theorem resetRegisters_fcode (s : State) : (resetRegisters s).fcode = .none := rfl
@[simp] theorem resetRegisters_finfo (s : State) : (resetRegisters s).finfo = 0 := rfl
@[simp] theorem resetRegisters_w (s : State) : (resetRegisters s).w = 0 := rfl
@[simp] theorem resetRegisters_h (s : State) : (resetRegisters s).h = 0 := rfl
@[simp] theorem resetRegisters_n (s : State) : (resetRegisters s).n = 0 := rfl
@[simp] theorem resetRegisters_pcount (s : State) : (resetRegisters s).pcount = 0 := rfl
@[simp] theorem resetRegisters_pal (s : State) :
    (resetRegisters s).pal = Vector.replicate palCap 0 := rfl
@[simp] theorem resetRegisters_np (s : State) : (resetRegisters s).np = 0 := rfl
@[simp] theorem resetRegisters_resp (s : State) : (resetRegisters s).resp = 0 := rfl
@[simp] theorem resetRegisters_idx (s : State) : (resetRegisters s).idx = s.idx := rfl
@[simp] theorem resetRegisters_bpl (s : State) : (resetRegisters s).bpl = s.bpl := rfl
@[simp] theorem resetRegisters_cfg (s : State) : (resetRegisters s).cfg = s.cfg := rfl
@[simp] theorem resetRegisters_port (s : State) : (resetRegisters s).port = s.port := rfl

/-! ### openImage -/

@[simp] theorem openImage_phase (w h : BitVec 16) (s : State) :
    (openImage w h s).phase = if w.toNat * h.toNat = 0 then .ready else .build := rfl
@[simp] theorem openImage_fcode (w h : BitVec 16) (s : State) : (openImage w h s).fcode = s.fcode := rfl
@[simp] theorem openImage_finfo (w h : BitVec 16) (s : State) : (openImage w h s).finfo = s.finfo := rfl
@[simp] theorem openImage_w (w h : BitVec 16) (s : State) : (openImage w h s).w = w := rfl
@[simp] theorem openImage_h (w h : BitVec 16) (s : State) : (openImage w h s).h = h := rfl
@[simp] theorem openImage_n (w h : BitVec 16) (s : State) : (openImage w h s).n = 0 := rfl
@[simp] theorem openImage_pcount (w h : BitVec 16) (s : State) : (openImage w h s).pcount = 0 := rfl
@[simp] theorem openImage_pal (w h : BitVec 16) (s : State) : (openImage w h s).pal = s.pal := rfl
@[simp] theorem openImage_np (w h : BitVec 16) (s : State) : (openImage w h s).np = 0 := rfl
@[simp] theorem openImage_resp (w h : BitVec 16) (s : State) : (openImage w h s).resp = s.resp := rfl
@[simp] theorem openImage_idx (w h : BitVec 16) (s : State) : (openImage w h s).idx = s.idx := rfl
@[simp] theorem openImage_bpl (w h : BitVec 16) (s : State) : (openImage w h s).bpl = s.bpl := rfl
@[simp] theorem openImage_cfg (w h : BitVec 16) (s : State) : (openImage w h s).cfg = s.cfg := rfl
@[simp] theorem openImage_port (w h : BitVec 16) (s : State) : (openImage w h s).port = s.port := rfl

/-! ### appendColor -/

@[simp] theorem appendColor_phase (c : Color) (s : State) : (appendColor c s).phase = s.phase := rfl
@[simp] theorem appendColor_fcode (c : Color) (s : State) : (appendColor c s).fcode = s.fcode := rfl
@[simp] theorem appendColor_finfo (c : Color) (s : State) : (appendColor c s).finfo = s.finfo := rfl
@[simp] theorem appendColor_w (c : Color) (s : State) : (appendColor c s).w = s.w := rfl
@[simp] theorem appendColor_h (c : Color) (s : State) : (appendColor c s).h = s.h := rfl
@[simp] theorem appendColor_n (c : Color) (s : State) : (appendColor c s).n = s.n := rfl
@[simp] theorem appendColor_pcount (c : Color) (s : State) :
    (appendColor c s).pcount = s.pcount + 1 := rfl
@[simp] theorem appendColor_pal (c : Color) (s : State) :
    (appendColor c s).pal = s.pal.setIfInBounds s.pcount.toNat c := rfl
@[simp] theorem appendColor_np (c : Color) (s : State) : (appendColor c s).np = s.np := rfl
@[simp] theorem appendColor_resp (c : Color) (s : State) : (appendColor c s).resp = s.resp := rfl
@[simp] theorem appendColor_idx (c : Color) (s : State) : (appendColor c s).idx = s.idx := rfl
@[simp] theorem appendColor_bpl (c : Color) (s : State) : (appendColor c s).bpl = s.bpl := rfl
@[simp] theorem appendColor_cfg (c : Color) (s : State) : (appendColor c s).cfg = s.cfg := rfl
@[simp] theorem appendColor_port (c : Color) (s : State) : (appendColor c s).port = s.port := rfl

/-! ### advanceCursor -/

@[simp] theorem advanceCursor_phase (s : State) :
    (advanceCursor s).phase = if (s.n + 1).toNat = area s then .ready else s.phase := rfl
@[simp] theorem advanceCursor_fcode (s : State) : (advanceCursor s).fcode = s.fcode := rfl
@[simp] theorem advanceCursor_finfo (s : State) : (advanceCursor s).finfo = s.finfo := rfl
@[simp] theorem advanceCursor_w (s : State) : (advanceCursor s).w = s.w := rfl
@[simp] theorem advanceCursor_h (s : State) : (advanceCursor s).h = s.h := rfl
@[simp] theorem advanceCursor_n (s : State) : (advanceCursor s).n = s.n + 1 := rfl
@[simp] theorem advanceCursor_pcount (s : State) : (advanceCursor s).pcount = s.pcount := rfl
@[simp] theorem advanceCursor_pal (s : State) : (advanceCursor s).pal = s.pal := rfl
@[simp] theorem advanceCursor_np (s : State) : (advanceCursor s).np = s.np := rfl
@[simp] theorem advanceCursor_resp (s : State) : (advanceCursor s).resp = s.resp := rfl
@[simp] theorem advanceCursor_idx (s : State) : (advanceCursor s).idx = s.idx := rfl
@[simp] theorem advanceCursor_bpl (s : State) : (advanceCursor s).bpl = s.bpl := rfl
@[simp] theorem advanceCursor_cfg (s : State) : (advanceCursor s).cfg = s.cfg := rfl
@[simp] theorem advanceCursor_port (s : State) : (advanceCursor s).port = s.port := rfl

/-! ### finishEncode -/

@[simp] theorem finishEncode_phase (np : Nat) (s : State) : (finishEncode np s).phase = .encoded := rfl
@[simp] theorem finishEncode_fcode (np : Nat) (s : State) : (finishEncode np s).fcode = s.fcode := rfl
@[simp] theorem finishEncode_finfo (np : Nat) (s : State) : (finishEncode np s).finfo = s.finfo := rfl
@[simp] theorem finishEncode_w (np : Nat) (s : State) : (finishEncode np s).w = s.w := rfl
@[simp] theorem finishEncode_h (np : Nat) (s : State) : (finishEncode np s).h = s.h := rfl
@[simp] theorem finishEncode_n (np : Nat) (s : State) : (finishEncode np s).n = s.n := rfl
@[simp] theorem finishEncode_pcount (np : Nat) (s : State) : (finishEncode np s).pcount = s.pcount := rfl
@[simp] theorem finishEncode_pal (np : Nat) (s : State) : (finishEncode np s).pal = s.pal := rfl
@[simp] theorem finishEncode_np (np : Nat) (s : State) :
    (finishEncode np s).np = BitVec.ofNat 3 np := rfl
@[simp] theorem finishEncode_resp (np : Nat) (s : State) : (finishEncode np s).resp = s.resp := rfl
@[simp] theorem finishEncode_idx (np : Nat) (s : State) : (finishEncode np s).idx = s.idx := rfl
@[simp] theorem finishEncode_bpl (np : Nat) (s : State) : (finishEncode np s).bpl = s.bpl := rfl
@[simp] theorem finishEncode_cfg (np : Nat) (s : State) : (finishEncode np s).cfg = s.cfg := rfl
@[simp] theorem finishEncode_port (np : Nat) (s : State) : (finishEncode np s).port = s.port := rfl

/-! ### presentWord -/

@[simp] theorem presentWord_phase (word : CommandWord) (s : State) :
    (presentWord word s).phase = s.phase := rfl
@[simp] theorem presentWord_fcode (word : CommandWord) (s : State) :
    (presentWord word s).fcode = s.fcode := rfl
@[simp] theorem presentWord_finfo (word : CommandWord) (s : State) :
    (presentWord word s).finfo = s.finfo := rfl
@[simp] theorem presentWord_w (word : CommandWord) (s : State) : (presentWord word s).w = s.w := rfl
@[simp] theorem presentWord_h (word : CommandWord) (s : State) : (presentWord word s).h = s.h := rfl
@[simp] theorem presentWord_n (word : CommandWord) (s : State) : (presentWord word s).n = s.n := rfl
@[simp] theorem presentWord_pcount (word : CommandWord) (s : State) :
    (presentWord word s).pcount = s.pcount := rfl
@[simp] theorem presentWord_pal (word : CommandWord) (s : State) :
    (presentWord word s).pal = s.pal := rfl
@[simp] theorem presentWord_np (word : CommandWord) (s : State) : (presentWord word s).np = s.np := rfl
@[simp] theorem presentWord_resp (word : CommandWord) (s : State) :
    (presentWord word s).resp = s.resp := rfl
@[simp] theorem presentWord_idx (word : CommandWord) (s : State) :
    (presentWord word s).idx = s.idx := rfl
@[simp] theorem presentWord_bpl (word : CommandWord) (s : State) :
    (presentWord word s).bpl = s.bpl := rfl
@[simp] theorem presentWord_cfg (word : CommandWord) (s : State) :
    (presentWord word s).cfg = s.cfg := rfl
@[simp] theorem presentWord_port (word : CommandWord) (s : State) :
    (presentWord word s).port = .command word :: s.port := rfl

end Sys2Proof.Machine
end

