-- ==== Sys2Proof/Laws/Ops.lean ====
section
/-! SUPPORT. What each shared operation of Machine/Ops.lean can do, said once. -/

namespace Sys2Proof.Machine

@[simp] theorem settle_ok (s : State) : settle (.ok s) = .next s := rfl
@[simp] theorem settle_error (r : Fault) : settle (.error r) = .fault r := rfl

theorem settle_eq_next {e : Except Fault State} {t : State} :
    settle e = .next t ↔ e = .ok t := by
  cases e <;> simp [settle]

theorem settle_ne_refused (e : Except Fault State) (r : Refusal) : settle e ≠ .refused r := by
  cases e <;> simp [settle]

/-! ### RAM accesses -/

theorem readIdx_eq_ok {s : State} {k : Nat} {v : PaletteIndex} :
    readIdx s k = .ok v ↔ k < idxCap s.cfg ∧ Memory.read s.idx k = some v := by
  unfold readIdx
  split
  · split <;> simp_all
  · simp_all

theorem readBpl_eq_ok {s : State} {o : Nat} {v : Byte} :
    readBpl s o = .ok v ↔ o < bplCap s.cfg ∧ Memory.read s.bpl o = some v := by
  unfold readBpl
  split
  · split <;> simp_all
  · simp_all

theorem writeIdx_eq_ok {s t : State} {k : Nat} {v : PaletteIndex} :
    writeIdx k v s = .ok t ↔
      k < idxCap s.cfg ∧ t = { s with idx := Memory.write s.idx k v } := by
  unfold writeIdx
  split <;> simp_all [eq_comm]

theorem writeBpl_eq_ok {s t : State} {o : Nat} {v : Byte} :
    writeBpl o v s = .ok t ↔
      o < bplCap s.cfg ∧ t = { s with bpl := Memory.write s.bpl o v } := by
  unfold writeBpl
  split <;> simp_all [eq_comm]

/-! ### The checks that precede every effect -/

section Guards

variable {s t : State} {perform : Host.Outcome State Fault Refusal} {accepted : List Phase}
  {op : BitVec 8} {ok : Bool}

theorem unlessFaulted_fault (h : s.phase = .fault) : unlessFaulted s perform = .next s := by
  simp [unlessFaulted, h]

theorem unlessFaulted_live (h : s.phase ≠ .fault) : unlessFaulted s perform = perform := by
  simp [unlessFaulted, h]

/-- Everything the FAULT-phase filter can do. -/
theorem unlessFaulted_eq_next : unlessFaulted s perform = .next t ↔
    (s.phase = .fault ∧ t = s) ∨ (s.phase ≠ .fault ∧ perform = .next t) := by
  unfold unlessFaulted
  split <;> simp_all [eq_comm]

theorem inPhases_fault (h : s.phase = .fault) : inPhases accepted op s perform = .next s :=
  unlessFaulted_fault h

theorem inPhases_accepted (hf : s.phase ≠ .fault) (h : s.phase ∈ accepted) :
    inPhases accepted op s perform = perform := by
  simp [inPhases, unlessFaulted_live hf, h]

theorem inPhases_rejected (hf : s.phase ≠ .fault) (h : s.phase ∉ accepted) :
    inPhases accepted op s perform = .next (raiseFault .sequenceError (op.setWidth 32) s) := by
  simp [inPhases, unlessFaulted_live hf, h]

/-- Everything the phase check can do. -/
theorem inPhases_eq_next : inPhases accepted op s perform = .next t ↔
    (s.phase = .fault ∧ t = s) ∨
    (s.phase ≠ .fault ∧ s.phase ∉ accepted ∧
      t = raiseFault .sequenceError (op.setWidth 32) s) ∨
    (s.phase ≠ .fault ∧ s.phase ∈ accepted ∧ perform = .next t) := by
  by_cases hf : s.phase = .fault
  · simp [inPhases_fault hf, hf, eq_comm]
  · by_cases h : s.phase ∈ accepted
    · simp [inPhases_accepted hf h, hf, h]
    · simp [inPhases_rejected hf h, hf, h, eq_comm]

/-- Everything the operand check of a read can do. -/
theorem inRange_eq_next : inRange ok op s perform = .next t ↔
    (ok = false ∧ t = raiseFault .rangeError (op.setWidth 32) s) ∨
    (ok = true ∧ perform = .next t) := by
  cases ok <;> simp [inRange, eq_comm]

end Guards

/-! ### The command port -/

theorem takeEvent_nil {s : State} (h : s.port = []) : takeEvent s = none := by
  simp [takeEvent, h]

theorem takeEvent_cons {s : State} {e : PortEvent} {rest : List PortEvent}
    (h : s.port = e :: rest) : takeEvent s = some (e, { s with port := rest }) := by
  simp [takeEvent, h]

end Sys2Proof.Machine
end

