-- ==== Sys2Proof/Laws/Pack.lean ====
section
/-! SUPPORT. The encoder's functions: bitlength, PLANES, PACKBIT, PACKBYTE, the buffer's offsets and the loop of
ENCODE (spec/41_bitplane_encoder.md R121-R127). -/

namespace Sys2Proof.Machine

/-! ### bitlength and PLANES -/

theorem lt_two_pow_bitlengthFuel {fuel v : Nat} (h : v ≤ fuel) :
    v < 2 ^ bitlengthFuel fuel v := by
  induction fuel generalizing v with
  | zero => simp [bitlengthFuel]; omega
  | succ fuel ih =>
    unfold bitlengthFuel
    split
    · simp_all
    · have := ih (v := v / 2) (by omega)
      rw [Nat.pow_succ]; omega

theorem two_pow_le_of_bitlengthFuel {fuel v n : Nat} (h : v ≤ fuel) (hn : v < 2 ^ n) :
    bitlengthFuel fuel v ≤ n := by
  induction fuel generalizing v n with
  | zero => simp [bitlengthFuel]
  | succ fuel ih =>
    unfold bitlengthFuel
    split
    · exact Nat.zero_le n
    · cases n with
      | zero => omega
      | succ n =>
        have := ih (v := v / 2) (n := n) (by omega) (by rw [Nat.pow_succ] at hn; omega)
        omega

/-- `v` has `bitlength(v)` binary digits: it fits, and in no fewer (R10). -/
theorem lt_two_pow_bitlength (v : Nat) : v < 2 ^ bitlength v :=
  lt_two_pow_bitlengthFuel (Nat.le_refl v)

theorem bitlength_le_of_lt {v n : Nat} (h : v < 2 ^ n) : bitlength v ≤ n :=
  two_pow_le_of_bitlengthFuel (Nat.le_refl v) h

/-- The plane count lies in 1..4 and has room for every index below `P` (R121, R128). -/
theorem planes_bounds {policy : SingleColorPolicy} {count np : Nat}
    (h : planes policy count = .ok np) (hc : count ≤ palCap) :
    1 ≤ np ∧ np ≤ maxPlanes ∧ 1 ≤ count ∧ count ≤ 2 ^ np := by
  match count, h with
  | 1, h =>
    cases policy <;> simp [planes] at h
    subst h; simp
  | p + 2, h =>
    simp only [planes, Except.ok.injEq] at h
    subst h
    have h1 : bitlength (p + 1) ≤ 4 := bitlength_le_of_lt (by simp only [palCap] at hc; omega)
    have h2 := lt_two_pow_bitlength (p + 1)
    refine ⟨?_, h1, by omega, by omega⟩
    rcases Nat.eq_zero_or_pos (bitlength (p + 1)) with h0 | h0
    · rw [h0] at h2; simp at h2
    · exact h0

/-- PLANES has no value exactly for an empty palette, and for a one-color palette under the `fault` policy
(R121). -/
theorem planes_eq_error {policy : SingleColorPolicy} {count : Nat} {code : FaultCode}
    (h : planes policy count = .error code) :
    (code = .emptyImage ∧ count = 0) ∨
    (code = .singleColorUndefined ∧ count = 1 ∧ policy = .fault) := by
  match count, h with
  | 0, h => simp [planes] at h; simp [h]
  | 1, h => cases policy <;> simp [planes] at h; simp [h]
  | p + 2, h => simp [planes] at h

/-- The plane count of any fill count fits the 3-bit register `NP`. -/
theorem planes_lt_eight {policy : SingleColorPolicy} {count np : Nat}
    (h : planes policy count = .ok np) (hc : count < 32) : np < 8 := by
  match count, h with
  | 1, h => cases policy <;> simp [planes] at h; omega
  | p + 2, h =>
    simp only [planes, Except.ok.injEq] at h
    have : bitlength (p + 1) ≤ 5 := bitlength_le_of_lt (by omega)
    omega

/-! ### PACKBIT and PACKBYTE -/

theorem readIdx_congr {s t : State} (hi : t.idx = s.idx) (hc : t.cfg = s.cfg) (k : Nat) :
    readIdx t k = readIdx s k := by
  simp only [readIdx, hi, hc]

/-- PACKBIT depends on the raster, the width and the parameters only (R120, R123). -/
theorem packBit_congr {s t : State} (hi : t.idx = s.idx) (hw : t.w = s.w) (hc : t.cfg = s.cfg)
    (y p b j : Nat) : packBit t y p b j = packBit s y p b j := by
  simp only [packBit, readIdx_congr hi hc, idxAddr, hw]

theorem packBits_congr {s t : State} (hi : t.idx = s.idx) (hw : t.w = s.w) (hc : t.cfg = s.cfg)
    (y p b k : Nat) : packBits t y p b k = packBits s y p b k := by
  induction k with
  | zero => rfl
  | succ k ih => simp only [packBits, ih, packBit_congr hi hw hc]

theorem packByte_congr {s t : State} (hi : t.idx = s.idx) (hw : t.w = s.w) (hc : t.cfg = s.cfg)
    (y p b : Nat) : packByte t y p b = packByte s y p b := packBits_congr hi hw hc y p b 8

/-- Bit `j` of the packed bits is PACKBIT (R124). -/
theorem packBit_of_packBits {s : State} {y p b k j : Nat} {v : BitVec k}
    (h : packBits s y p b k = .ok v) (hj : j < k) :
    packBit s y p b j = .ok (v.getLsbD j) := by
  induction k with
  | zero => omega
  | succ k ih =>
    unfold packBits at h
    split at h
    · next low bit hlow hbit =>
      simp only [Except.ok.injEq] at h
      subst h
      rw [BitVec.getLsbD_cons]
      split
      · subst_vars; exact hbit
      · exact ih hlow (by omega)
    · simp at h
    · simp at h

theorem packBits_isOk {s : State} {y p b k : Nat}
    (h : ∀ j, j < k → ∃ bit, packBit s y p b j = .ok bit) : ∃ v, packBits s y p b k = .ok v := by
  induction k with
  | zero => exact ⟨_, rfl⟩
  | succ k ih =>
    obtain ⟨low, hlow⟩ := ih fun j hj => h j (by omega)
    obtain ⟨bit, hbit⟩ := h k (by omega)
    exact ⟨BitVec.cons bit low, by simp only [packBits, hlow, hbit]⟩

/-- PACKBIT within the width reads the pixel's cell, past it is 0 (R123). -/
theorem packBit_eq_ok {s : State} {y p b j : Nat} {bit : Bool} :
    packBit s y p b j = .ok bit ↔
      if 8 * b + (7 - j) < s.w.toNat then
        ∃ v, readIdx s (idxAddr s (8 * b + (7 - j)) y) = .ok v ∧ bit = v.getLsbD p
      else bit = false := by
  simp only [packBit]
  split
  · cases h : readIdx s (idxAddr s (8 * b + (7 - j)) y) <;> simp [Except.map, eq_comm]
  · simp [eq_comm]

/-- Where every cell of the raster is readable, every byte can be packed. -/
theorem packByte_isOk {s : State} {y p b : Nat} (hy : y < s.h.toNat)
    (hread : ∀ k, k < area s → ∃ v, readIdx s k = .ok v) : ∃ v, packByte s y p b = .ok v := by
  apply packBits_isOk
  intro j _
  by_cases hx : 8 * b + (7 - j) < s.w.toNat
  · have hk : idxAddr s (8 * b + (7 - j)) y < area s := by
      have h1 : (y + 1) * s.w.toNat ≤ s.h.toNat * s.w.toNat := Nat.mul_le_mul_right _ hy
      rw [Nat.add_mul] at h1
      simp only [idxAddr, area, Nat.mul_comm s.w.toNat]
      omega
    obtain ⟨v, hv⟩ := hread _ hk
    exact ⟨v.getLsbD p, packBit_eq_ok.mpr (by rw [if_pos hx]; exact ⟨v, hv, rfl⟩)⟩
  · exact ⟨false, packBit_eq_ok.mpr (by rw [if_neg hx])⟩

/-! ### Offsets -/

theorem mul_add_injective {m a b c d : Nat} (hb : b < m) (hd : d < m) (h : a * m + b = c * m + d) :
    a = c ∧ b = d := by
  have hm : 0 < m := by omega
  have h1 : (a * m + b) / m = a := by
    rw [Nat.mul_comm, Nat.mul_add_div hm, Nat.div_eq_of_lt hb, Nat.add_zero]
  have h2 : (c * m + d) / m = c := by
    rw [Nat.mul_comm, Nat.mul_add_div hm, Nat.div_eq_of_lt hd, Nat.add_zero]
  have hac : a = c := by rw [← h1, ← h2, h]
  subst hac
  exact ⟨rfl, by omega⟩

theorem mul_add_lt {m n a b : Nat} (ha : a < n) (hb : b < m) : a * m + b < n * m := by
  have : (a + 1) * m ≤ n * m := Nat.mul_le_mul_right m ha
  rw [Nat.add_mul] at this
  omega

/-- Distinct positions have distinct offsets (R127). -/
theorem bplOffset_injective {np bw y p b y' p' b' : Nat} (hp : p < np) (hb : b < bw)
    (hp' : p' < np) (hb' : b' < bw) (h : bplOffset np bw y p b = bplOffset np bw y' p' b') :
    y = y' ∧ p = p' ∧ b = b' := by
  obtain ⟨h1, h2⟩ := mul_add_injective hb hb' h
  obtain ⟨h3, h4⟩ := mul_add_injective hp hp' h1
  exact ⟨h3, h4, h2⟩

/-- Every offset of the buffer lies below its size (R127). -/
theorem bplOffset_lt {np bw h y p b : Nat} (hy : y < h) (hp : p < np) (hb : b < bw) :
    bplOffset np bw y p b < bw * h * np := by
  have := mul_add_lt (mul_add_lt hy hp) hb
  rw [bplOffset]
  calc (y * np + p) * bw + b < h * np * bw := this
    _ = bw * h * np := by ring

/-- Every offset below the size is the offset of its position (R127, R147). -/
theorem bplOffset_of_offset {np bw h o : Nat} (ho : o < bw * h * np) :
    o / (np * bw) < h ∧ o / bw % np < np ∧ o % bw < bw ∧
      bplOffset np bw (o / (np * bw)) (o / bw % np) (o % bw) = o := by
  have hbw : 0 < bw := by rcases Nat.eq_zero_or_pos bw with h0 | h0 <;> simp_all
  have hnp : 0 < np := by rcases Nat.eq_zero_or_pos np with h0 | h0 <;> simp_all
  have hrow : o / (np * bw) = o / bw / np := by rw [Nat.mul_comm, Nat.div_div_eq_div_mul]
  refine ⟨?_, Nat.mod_lt _ hnp, Nat.mod_lt _ hbw, ?_⟩
  · rw [Nat.div_lt_iff_lt_mul (Nat.mul_pos hnp hbw)]
    calc o < bw * h * np := ho
      _ = h * (np * bw) := by ring
  · rw [hrow, bplOffset, Nat.mul_comm (o / bw / np), Nat.div_add_mod, Nat.mul_comm, Nat.div_add_mod]

theorem byteWidth_mono {a b : Nat} (h : a ≤ b) : byteWidth a ≤ byteWidth b := by
  unfold byteWidth; omega

/-- The positions of ENCODE's loop (R126). -/
theorem mem_packOrder {h np bw y p b : Nat} :
    (y, p, b) ∈ packOrder h np bw ↔ y < h ∧ p < np ∧ b < bw := by
  simp [packOrder]

/-! ### The loop of ENCODE -/

/-- Everything the loop can do, if it completes: it changes nothing but `BPL`; every position was packed from
the raster it started with; a listed offset holds the packed byte of a position of that offset; every other
byte is unchanged; the canonical form is kept. -/
theorem packEach_eq_ok {np : Nat} {l : List (Nat × Nat × Nat)} {s t : State}
    (h : packEach np l s = .ok t) :
    t = { s with bpl := t.bpl } ∧
    (∀ y p b, (y, p, b) ∈ l → ∃ y' p' b' v, (y', p', b') ∈ l ∧
      bplOffset np (byteWidth s.w.toNat) y p b = bplOffset np (byteWidth s.w.toNat) y' p' b' ∧
      packByte s y' p' b' = .ok v ∧
      Memory.read t.bpl (bplOffset np (byteWidth s.w.toNat) y p b) = some v) ∧
    (∀ o, (∀ y p b, (y, p, b) ∈ l → bplOffset np (byteWidth s.w.toNat) y p b ≠ o) →
      Memory.read t.bpl o = Memory.read s.bpl o) ∧
    (Memory.wf s.bpl = true → Memory.wf t.bpl = true) ∧
    (Memory.within (bplCap s.cfg) s.bpl = true → Memory.within (bplCap s.cfg) t.bpl = true) := by
  induction l generalizing s with
  | nil =>
    simp only [packEach, Except.ok.injEq] at h
    subst h
    simp
  | cons e rest ih =>
    obtain ⟨y, p, b⟩ := e
    unfold packEach at h
    split at h
    · simp at h
    · next v hv =>
      split at h
      · simp at h
      · next u hu =>
        obtain ⟨hcap, rfl⟩ := writeBpl_eq_ok.mp hu
        obtain ⟨heq, hmem, hother, hwf, hin⟩ := ih h
        refine ⟨by rw [heq], ?_, ?_, ?_, ?_⟩
        · intro y₁ p₁ b₁ hm
          by_cases hlater : ∃ y' p' b', (y', p', b') ∈ rest ∧
              bplOffset np (byteWidth s.w.toNat) y' p' b' =
                bplOffset np (byteWidth s.w.toNat) y₁ p₁ b₁
          · obtain ⟨y', p', b', hm', ho⟩ := hlater
            obtain ⟨y₂, p₂, b₂, v₂, hm₂, ho₂, hp₂, hr₂⟩ := hmem y' p' b' hm'
            simp only at ho₂ hr₂
            refine ⟨y₂, p₂, b₂, v₂, List.mem_cons_of_mem _ hm₂, by rw [← ho, ho₂], ?_, ?_⟩
            · rw [← hp₂]; exact (packByte_congr rfl rfl rfl _ _ _).symm
            · rw [← ho]; exact hr₂
          · rcases List.mem_cons.mp hm with hhd | htl
            · obtain ⟨rfl, rfl, rfl⟩ : y₁ = y ∧ p₁ = p ∧ b₁ = b := by simpa using hhd
              refine ⟨y₁, p₁, b₁, v, List.mem_cons_self, rfl, hv, ?_⟩
              rw [hother _ fun y' p' b' hm' ho => hlater ⟨y', p', b', hm', ho⟩]
              exact Memory.read_write_same _ _ _
            · exact absurd ⟨y₁, p₁, b₁, htl, rfl⟩ hlater
        · intro o ho
          rw [hother o fun y' p' b' hm' => ho y' p' b' (List.mem_cons_of_mem _ hm')]
          exact Memory.read_write_other _ _ (Ne.symm (ho y p b List.mem_cons_self))
        · exact fun hw => hwf (Memory.wf_write _ _ hw)
        · exact fun hw => hin (Memory.within_write _ hw hcap)

/-- The loop completes where every position can be packed and lies in the RAM. -/
theorem packEach_isOk {np : Nat} {l : List (Nat × Nat × Nat)} {s : State}
    (h : ∀ y p b, (y, p, b) ∈ l → (∃ v, packByte s y p b = .ok v) ∧
      bplOffset np (byteWidth s.w.toNat) y p b < bplCap s.cfg) :
    ∃ t, packEach np l s = .ok t := by
  induction l generalizing s with
  | nil => exact ⟨s, rfl⟩
  | cons e rest ih =>
    obtain ⟨y, p, b⟩ := e
    obtain ⟨⟨v, hv⟩, hcap⟩ := h y p b List.mem_cons_self
    obtain ⟨u, hu, hui, huw, huc⟩ : ∃ u, writeBpl (bplOffset np (byteWidth s.w.toNat) y p b) v s =
        .ok u ∧ u.idx = s.idx ∧ u.w = s.w ∧ u.cfg = s.cfg :=
      ⟨_, writeBpl_eq_ok.mpr ⟨hcap, rfl⟩, rfl, rfl, rfl⟩
    obtain ⟨t, ht⟩ := ih (s := u) fun y' p' b' hm => by
      obtain ⟨⟨v', hv'⟩, hcap'⟩ := h y' p' b' (List.mem_cons_of_mem _ hm)
      exact ⟨⟨v', by rw [packByte_congr hui huw huc]; exact hv'⟩, by rw [huw, huc]; exact hcap'⟩
    exact ⟨t, by simp only [packEach, hv, hu, ht]⟩

/-- Everything the buffer fill of ENCODE can do, if it completes (R126, R127). -/
theorem encodeImage_eq_ok {np : Nat} {s t : State} (h : encodeImage np s = .ok t) :
    t = { s with bpl := t.bpl, np := BitVec.ofNat 3 np, phase := .encoded } ∧
    (∀ y p b, y < s.h.toNat → p < np → b < byteWidth s.w.toNat → ∃ v,
      packByte s y p b = .ok v ∧
      Memory.read t.bpl (bplOffset np (byteWidth s.w.toNat) y p b) = some v) ∧
    (∀ o, byteWidth s.w.toNat * s.h.toNat * np ≤ o →
      Memory.read t.bpl o = Memory.read s.bpl o) ∧
    (Memory.wf s.bpl = true → Memory.wf t.bpl = true) ∧
    (Memory.within (bplCap s.cfg) s.bpl = true → Memory.within (bplCap s.cfg) t.bpl = true) := by
  unfold encodeImage at h
  cases hp : packEach np (packOrder s.h.toNat np (byteWidth s.w.toNat)) s with
  | error r => simp [hp, Except.map] at h
  | ok u =>
    simp only [hp, Except.map, Except.ok.injEq] at h
    subst h
    obtain ⟨heq, hmem, hother, hwf, hin⟩ := packEach_eq_ok hp
    refine ⟨by rw [heq]; rfl, ?_, ?_, hwf, hin⟩
    · intro y p b hy hpl hb
      obtain ⟨y', p', b', v, hm', ho, hpk, hr⟩ := hmem y p b (mem_packOrder.mpr ⟨hy, hpl, hb⟩)
      obtain ⟨hy', hp', hb'⟩ := mem_packOrder.mp hm'
      obtain ⟨rfl, rfl, rfl⟩ := bplOffset_injective hpl hb hp' hb' ho
      exact ⟨v, hpk, hr⟩
    · intro o ho
      apply hother
      intro y p b hm heq'
      obtain ⟨hy, hpl, hb⟩ := mem_packOrder.mp hm
      have := bplOffset_lt hy hpl hb
      omega

/-- The buffer fill completes where the raster is readable and the image fits the QP. -/
theorem encodeImage_isOk {np : Nat} {s : State} (hread : ∀ k, k < area s → ∃ v, readIdx s k = .ok v)
    (hw : s.w.toNat ≤ s.cfg.maxW) (hh : s.h.toNat ≤ s.cfg.maxH) (hnp : np ≤ maxPlanes) :
    ∃ t, encodeImage np s = .ok t := by
  have hcap : byteWidth s.w.toNat * s.h.toNat * np ≤ bplCap s.cfg :=
    Nat.mul_le_mul (Nat.mul_le_mul (byteWidth_mono hw) hh) hnp
  obtain ⟨t, ht⟩ := packEach_isOk (np := np)
      (l := packOrder s.h.toNat np (byteWidth s.w.toNat)) (s := s) fun y p b hm => by
    obtain ⟨hy, hp, hb⟩ := mem_packOrder.mp hm
    exact ⟨packByte_isOk hy hread, Nat.lt_of_lt_of_le (bplOffset_lt hy hp hb) hcap⟩
  exact ⟨finishEncode np t, by simp [encodeImage, ht, Except.map]⟩

end Sys2Proof.Machine
end

