-- ==== Sys2Proof/Laws/Palette.lean ====
section
/-! SUPPORT. The live palette and LOOKUP (spec/40_palette_builder.md R102, R107). -/

namespace Sys2Proof.Machine

variable {s : State} {c : Color} {i : PaletteIndex}

theorem livePal_length (h : s.pcount.toNat ≤ palCap) :
    (livePal s).length = s.pcount.toNat := by
  simp [livePal]; omega

theorem livePal_getElem? (h : i.toNat < s.pcount.toNat) :
    (livePal s)[i.toNat]? = some (palEntry s i) := by
  have hi : i.toNat < 16 := i.isLt
  simp [livePal, palEntry, h, hi]

/-- The live palette depends on nothing but `PAL` and `PCOUNT`. -/
theorem livePal_congr {t : State} (hp : t.pal = s.pal) (hc : t.pcount = s.pcount) :
    livePal t = livePal s := by simp [livePal, hp, hc]

theorem mem_livePal (h : s.pcount.toNat ≤ palCap) :
    c ∈ livePal s ↔ ∃ i : PaletteIndex, i.toNat < s.pcount.toNat ∧ palEntry s i = c := by
  rw [List.mem_iff_getElem?]
  constructor
  · rintro ⟨k, hk⟩
    have hlt : k < s.pcount.toNat := by
      have := (List.getElem?_eq_some_iff.mp hk).1
      rwa [livePal_length h] at this
    have hk16 : k < 16 := by simp only [palCap] at h; omega
    refine ⟨BitVec.ofNat 4 k, ?_, ?_⟩
    · simpa [Nat.mod_eq_of_lt hk16] using hlt
    · have := livePal_getElem? (s := s) (i := BitVec.ofNat 4 k)
        (by simpa [Nat.mod_eq_of_lt hk16] using hlt)
      simp only [BitVec.toNat_ofNat, Nat.reducePow, Nat.mod_eq_of_lt hk16] at this
      rw [this] at hk
      exact Option.some.inj hk
  · rintro ⟨i, hi, rfl⟩
    exact ⟨i.toNat, livePal_getElem? hi⟩

/-- LOOKUP answers the least live index that holds the color (R102). -/
theorem lookup_eq_some (h : s.pcount.toNat ≤ palCap) : lookup s c = some i ↔
    i.toNat < s.pcount.toNat ∧ palEntry s i = c ∧
      ∀ j : PaletteIndex, j.toNat < i.toNat → palEntry s j ≠ c := by
  have hcap : s.pcount.toNat ≤ 16 := h
  simp only [lookup, Option.map_eq_some_iff]
  constructor
  · rintro ⟨k, hk, rfl⟩
    rw [List.findIdx?_eq_some_iff_getElem] at hk
    obtain ⟨hlt, hc, hmin⟩ := hk
    rw [livePal_length h] at hlt
    have hk16 : k < 16 := by omega
    have hto : (BitVec.ofNat 4 k).toNat = k := by simp [Nat.mod_eq_of_lt hk16]
    refine ⟨by omega, ?_, ?_⟩
    · have := livePal_getElem? (s := s) (i := BitVec.ofNat 4 k) (by omega)
      rw [hto, List.getElem?_eq_getElem (by rw [livePal_length h]; exact hlt)] at this
      simpa [Option.some.inj this] using hc
    · intro j hj
      rw [hto] at hj
      have := livePal_getElem? (s := s) (i := j) (by omega)
      rw [List.getElem?_eq_getElem (by rw [livePal_length h]; omega)] at this
      have hne := hmin j.toNat hj
      simpa [Option.some.inj this] using hne
  · rintro ⟨hlt, hc, hmin⟩
    refine ⟨i.toNat, ?_, by simp⟩
    rw [List.findIdx?_eq_some_iff_getElem]
    refine ⟨by rw [livePal_length h]; exact hlt, ?_, ?_⟩
    · have := livePal_getElem? (s := s) hlt
      rw [List.getElem?_eq_getElem (by rw [livePal_length h]; exact hlt)] at this
      simpa [Option.some.inj this] using hc
    · intro k hk
      have hk16 : k < 16 := by omega
      have hto : (BitVec.ofNat 4 k).toNat = k := by simp [Nat.mod_eq_of_lt hk16]
      have hne := hmin (BitVec.ofNat 4 k) (by omega)
      have := livePal_getElem? (s := s) (i := BitVec.ofNat 4 k) (by omega)
      rw [hto, List.getElem?_eq_getElem (by rw [livePal_length h]; omega)] at this
      simpa [Option.some.inj this] using hne

theorem lookup_eq_none : lookup s c = none ↔ c ∉ livePal s := by
  simp only [lookup, Option.map_eq_none_iff, List.findIdx?_eq_none_iff, beq_eq_false_iff_ne]
  exact ⟨fun h hc => h c hc rfl, fun h x hx hxc => h (hxc ▸ hx)⟩

/-- Appending a color to a palette that is not full extends the live palette by it (R107). -/
theorem livePal_appendColor (h : s.pcount.toNat < palCap) :
    livePal (appendColor c s) = livePal s ++ [c] := by
  have hcap : s.pcount.toNat < 16 := h
  have hto : (s.pcount + 1).toNat = s.pcount.toNat + 1 := by
    simp [BitVec.toNat_add]; omega
  apply List.ext_getElem?
  intro k
  simp only [livePal, appendColor_pal, appendColor_pcount, hto, Vector.toList_setIfInBounds]
  rcases Nat.lt_trichotomy k s.pcount.toNat with hk | hk | hk
  · rw [List.getElem?_append_left (by simp; omega)]
    simp [hk, Nat.lt_succ_of_lt hk, Nat.ne_of_gt hk]
  · subst hk
    rw [List.getElem?_append_right (by simp)]
    simp [hcap, Nat.min_eq_left (Nat.le_of_lt hcap)]
  · rw [List.getElem?_append_right (by simp; omega)]
    simp only [List.getElem?_take]
    rw [if_neg (by omega)]
    symm
    rw [List.getElem?_eq_none_iff]
    simp; omega

/-- Appending keeps every entry below the fill count. -/
theorem palEntry_appendColor (h : i.toNat < s.pcount.toNat) :
    palEntry (appendColor c s) i = palEntry s i := by
  simp [palEntry, Nat.ne_of_gt h]

/-- The appended color stands at the old fill count. -/
theorem palEntry_appendColor_new (h : s.pcount.toNat < palCap) :
    palEntry (appendColor c s) (s.pcount.setWidth 4) = c := by
  have hcap : s.pcount.toNat < 16 := h
  simp [palEntry, BitVec.toNat_setWidth, Nat.mod_eq_of_lt hcap]

/-- What accepting a pixel's index leaves: the cell, the cursor and possibly the phase (R107). -/
theorem recordIndex_eq_ok {t : State} : recordIndex i s = .ok t ↔
    s.n.toNat < idxCap s.cfg ∧
      t = advanceCursor { s with idx := Memory.write s.idx s.n.toNat i } := by
  unfold recordIndex
  by_cases hk : s.n.toNat < idxCap s.cfg
  · simp [writeIdx, hk, Except.map, eq_comm]
  · simp [writeIdx, hk, Except.map]

end Sys2Proof.Machine
end

