-- ==== Sys2Proof/Laws/Exec.lean ====
section
/-! SUPPORT. Everything each command can do: one inversion lemma per meaning, from which later proofs derive
frames and invariants. -/

namespace Sys2Proof.Machine

variable {s t : State}

theorem exec_begin_eq_next {w h : BitVec 16} : exec (.begin w h) s = .next t ↔
    (s.phase = .fault ∧ t = s) ∨
    (s.phase ≠ .fault ∧ imageFits s.cfg w h = false ∧ t = raiseFault .capacityExceeded 1 s) ∨
    (s.phase ≠ .fault ∧ imageFits s.cfg w h = true ∧ t = openImage w h s) := by
  simp only [exec, execBegin, unlessFaulted_eq_next]
  cases imageFits s.cfg w h <;> simp [@eq_comm State t]

theorem exec_pixel_eq_next {r g b a : Channel} : exec (.pixel r g b a) s = .next t ↔
    (s.phase = .fault ∧ t = s) ∨
    (s.phase ≠ .fault ∧ s.phase ≠ .build ∧ t = raiseFault .sequenceError 2 s) ∨
    (s.phase = .build ∧ lookup s (quantize r g b) = none ∧ s.pcount = 16 ∧
      t = raiseFault .paletteOverflow s.n s) ∨
    (s.phase = .build ∧ lookup s (quantize r g b) = none ∧ s.pcount ≠ 16 ∧
      recordIndex (s.pcount.setWidth 4) (appendColor (quantize r g b) s) = .ok t) ∨
    (s.phase = .build ∧ ∃ i, lookup s (quantize r g b) = some i ∧ recordIndex i s = .ok t) := by
  simp only [exec, execPixel, inPhases_eq_next, acceptColor, List.mem_singleton]
  by_cases hb : s.phase = .build
  · cases hl : lookup s (quantize r g b)
    · by_cases hc : s.pcount = 16#5 <;> simp [hb, hc, settle_eq_next, @eq_comm State t]
    · simp [hb, settle_eq_next]
  · simp [hb]

theorem exec_encode_eq_next : exec .encode s = .next t ↔
    (s.phase = .fault ∧ t = s) ∨
    (s.phase ≠ .fault ∧ s.phase ≠ .ready ∧ t = raiseFault .sequenceError 3 s) ∨
    (s.phase = .ready ∧ ∃ code, planes s.cfg.policy s.pcount.toNat = .error code ∧
      t = raiseFault code 0 s) ∨
    (s.phase = .ready ∧ ∃ np, planes s.cfg.policy s.pcount.toNat = .ok np ∧
      encodeImage np s = .ok t) := by
  simp only [exec, execEncode, inPhases_eq_next, List.mem_singleton]
  by_cases hr : s.phase = .ready
  · cases hp : planes s.cfg.policy s.pcount.toNat <;> simp [hr, settle_eq_next, @eq_comm State t]
  · simp [hr]

theorem exec_rdpal_eq_next {i : PaletteIndex} : exec (.rdpal i) s = .next t ↔
    (s.phase = .fault ∧ t = s) ∨
    (s.phase ≠ .fault ∧ s.phase ∉ [.ready, .encoded] ∧ t = raiseFault .sequenceError 4 s) ∨
    (s.phase ∈ [.ready, .encoded] ∧ isLiveIndex s i = false ∧ t = raiseFault .rangeError 4 s) ∨
    (s.phase ∈ [.ready, .encoded] ∧ isLiveIndex s i = true ∧ t = respond (paletteResponse s i) s) := by
  simp only [exec, execRdpal, inPhases_eq_next, inRange_eq_next]
  by_cases hp : s.phase ∈ [.ready, .encoded]
  · have : s.phase ≠ .fault := by rintro h; simp [h] at hp
    cases isLiveIndex s i <;> simp [hp, this, @eq_comm State t]
  · simp [hp]

theorem respondWith_eq_next {n : Nat} {e : Except Fault (BitVec n)} :
    respondWith e s = .next t ↔ ∃ v, e = .ok v ∧ t = respond (v.setWidth 32) s := by
  cases e <;> simp [respondWith, Except.map, @eq_comm State t]

theorem exec_rdidx_eq_next {x y : BitVec 16} : exec (.rdidx x y) s = .next t ↔
    (s.phase = .fault ∧ t = s) ∨
    (s.phase ≠ .fault ∧ s.phase ∉ [.ready, .encoded] ∧ t = raiseFault .sequenceError 5 s) ∨
    (s.phase ∈ [.ready, .encoded] ∧ inRaster s x y = false ∧ t = raiseFault .rangeError 5 s) ∨
    (s.phase ∈ [.ready, .encoded] ∧ inRaster s x y = true ∧
      ∃ v, readIdx s (idxAddr s x.toNat y.toNat) = .ok v ∧ t = respond (v.setWidth 32) s) := by
  simp only [exec, execRdidx, inPhases_eq_next, inRange_eq_next, respondWith_eq_next]
  by_cases hp : s.phase ∈ [.ready, .encoded]
  · have : s.phase ≠ .fault := by rintro h; simp [h] at hp
    cases inRaster s x y <;> simp [hp, this]
  · simp [hp]

theorem exec_rdbpl_eq_next {off : Word32} : exec (.rdbpl off) s = .next t ↔
    (s.phase = .fault ∧ t = s) ∨
    (s.phase ≠ .fault ∧ s.phase ≠ .encoded ∧ t = raiseFault .sequenceError 6 s) ∨
    (s.phase = .encoded ∧ inBuffer s off = false ∧ t = raiseFault .rangeError 6 s) ∨
    (s.phase = .encoded ∧ inBuffer s off = true ∧
      ∃ v, readBpl s off.toNat = .ok v ∧ t = respond (v.setWidth 32) s) := by
  simp only [exec, execRdbpl, inPhases_eq_next, inRange_eq_next, respondWith_eq_next,
    List.mem_singleton]
  by_cases hp : s.phase = .encoded
  · cases inBuffer s off <;> simp [hp]
  · simp [hp]

theorem exec_rdstat_eq_next : exec .rdstat s = .next t ↔ t = respond (statusWord s) s := by
  simp [exec, execRdstat, @eq_comm State t]

theorem exec_rdfinfo_eq_next : exec .rdfinfo s = .next t ↔ t = respond s.finfo s := by
  simp [exec, execRdfinfo, @eq_comm State t]

theorem exec_srst_eq_next : exec .srst s = .next t ↔ t = resetRegisters s := by
  simp [exec, execSrst, @eq_comm State t]

theorem rejectWord_eq_next {op : BitVec 8} : rejectWord op s = .next t ↔
    (s.phase = .fault ∧ t = s) ∨
    (s.phase ≠ .fault ∧ t = raiseFault .illegalCommand (op.setWidth 32) s) := by
  simp [rejectWord, unlessFaulted_eq_next, @eq_comm State t]

/-- Everything a step can do: nothing on an idle port, a register reset, a command, or an illegal word. -/
theorem step_cases (s : State) :
    (s.port = [] ∧ step s = .next s) ∨
    (∃ rest, s.port = .reset :: rest ∧ step s = .next (resetRegisters { s with port := rest })) ∨
    (∃ word rest i, s.port = .command word :: rest ∧ decodeWord word = .ok i ∧
      step s = exec i { s with port := rest }) ∨
    (∃ word rest r, s.port = .command word :: rest ∧ decodeWord word = .error r ∧
      step s = rejectWord (opField word) { s with port := rest }) := by
  match hp : s.port with
  | [] => exact .inl ⟨rfl, by simp [step, takeEvent, hp, idlePort]⟩
  | .reset :: rest => exact .inr (.inl ⟨rest, rfl, by simp [step, takeEvent, hp, resetInput]⟩)
  | .command word :: rest =>
    cases hd : decodeWord word with
    | ok i =>
      exact .inr (.inr (.inl ⟨word, rest, i, rfl, hd, by simp [step, takeEvent, hp, performWord, hd]⟩))
    | error r =>
      exact .inr (.inr (.inr ⟨word, rest, r, rfl, hd, by simp [step, takeEvent, hp, performWord, hd]⟩))

end Sys2Proof.Machine
end

