-- ==== Sys2Proof/Laws/PerInstr.lean ====
section
/-! SUPPORT. Families of facts about every command as syntax, one lemma per constructor of `Instr`. -/

namespace Sys2Proof.Laws

/-- The word of a command is matched by the row of R79 that bears the command's mnemonic. -/
def EncodingRow.Statement (i : Instr) : Prop :=
  ∃ row ∈ opcodeRows, row.mnemonic = i.mnemonic ∧ row.matchesWord (encode i) = true

/-- An encoded command under a mask that covers the opcode and the reserved field. -/
theorem encode_and_mask (i : Instr) (m : Word32) :
    encode i &&& (0xFF#8 ++ 0xFFFFFF#24 ++ m) = opcodeOf i ++ 0#24 ++ (operandsOf i &&& m) := by
  rw [encode, BitVec.and_append, BitVec.and_append]
  congr 2
  exact BitVec.and_allOnes

/-- A row matches the encoded command whose opcode it bears and whose operand area it masks to its own. -/
theorem matchesWord_encode {i : Instr} {row : OpcodeRow} (m : Word32) (op : BitVec 8)
    (hmask : row.mask = 0xFF#8 ++ 0xFFFFFF#24 ++ m) (hop : opcodeOf i = op)
    (hpattern : row.pattern = op ++ 0#24 ++ 0#32) (harea : operandsOf i &&& m = 0#32) :
    row.matchesWord (encode i) = true := by
  rw [OpcodeRow.matchesWord, hmask, encode_and_mask, hop, hpattern, harea, beq_self_eq_true]

theorem EncodingRow.begin (w h : BitVec 16) : EncodingRow.Statement (.begin w h) :=
  ⟨opcodeRows[0], by decide, rfl,
    matchesWord_encode 0 0x01 (by decide) rfl (by decide) (by simp)⟩

theorem EncodingRow.pixel (r g b a : Channel) : EncodingRow.Statement (.pixel r g b a) :=
  ⟨opcodeRows[1], by decide, rfl,
    matchesWord_encode 0 0x02 (by decide) rfl (by decide) (by simp)⟩

theorem EncodingRow.encode : EncodingRow.Statement .encode :=
  ⟨opcodeRows[2], by decide, rfl, by decide⟩

theorem EncodingRow.rdpal (i : PaletteIndex) : EncodingRow.Statement (.rdpal i) :=
  ⟨opcodeRows[3], by decide, rfl,
    matchesWord_encode (0xFFFFFFF#28 ++ 0#4) 0x04 (by decide) rfl (by decide) (by
      rw [operandsOf, BitVec.and_append]
      simp)⟩

theorem EncodingRow.rdidx (x y : BitVec 16) : EncodingRow.Statement (.rdidx x y) :=
  ⟨opcodeRows[4], by decide, rfl,
    matchesWord_encode 0 0x05 (by decide) rfl (by decide) (by simp)⟩

theorem EncodingRow.rdbpl (off : Word32) : EncodingRow.Statement (.rdbpl off) :=
  ⟨opcodeRows[5], by decide, rfl,
    matchesWord_encode 0 0x06 (by decide) rfl (by decide) (by simp)⟩

theorem EncodingRow.rdstat : EncodingRow.Statement .rdstat :=
  ⟨opcodeRows[6], by decide, rfl, by decide⟩

theorem EncodingRow.rdfinfo : EncodingRow.Statement .rdfinfo :=
  ⟨opcodeRows[7], by decide, rfl, by decide⟩

theorem EncodingRow.srst : EncodingRow.Statement .srst :=
  ⟨opcodeRows[8], by decide, rfl, by decide⟩

end Sys2Proof.Laws
end

