-- ==== Sys2Proof/Tests/Slice0.lean ====
section
/-! SUPPORT. Small tests, their expected results taken from spec/95_test_vectors.md (each names its vector) or from
the rule it names, and a witness for the hypotheses of every statement of
Sys2Proof/Certificates/Slice0/Obligations.lean. -/

namespace Sys2Proof.Tests

open Sys2Proof Sys2Proof.Machine

/-! ### Small states -/

/-- A palette file that begins with the given entries. -/
def palFile (entries : List Color) : Vector Color palCap :=
  Vector.ofFn fun i => entries.getD i 0

/-- The state after `BEGIN 2, 1` from reset (V-B1). -/
def building : State := { State.reset with phase := .build, w := 2, h := 1 }

/-- The 2x1 image of Scenario A, both pixels accepted. -/
def readyA : State :=
  { State.reset with
    phase := .ready, w := 2, h := 1, n := 2, pcount := 2
    pal := palFile [0xF00, 0x0F0], idx := [(0, 0), (1, 1)] }

/-- The end of Program 1 before its reads. -/
def encodedA : State := { readyA with phase := .encoded, np := 1, bpl := [(0, 0x40)] }

/-- A 17x1 image after the 16 colors of Program 3. -/
def fullPalette : State :=
  { State.reset with
    phase := .build, w := 17, h := 1, n := 16, pcount := 16
    pal := Vector.ofFn fun i => BitVec.ofNat 12 (0x100 * i)
    idx := (List.range 16).map fun k => (k, BitVec.ofNat 4 k) }

/-- A 1x1 image with its one pixel accepted (V-P5). -/
def readyOne : State :=
  { State.reset with
    phase := .ready, w := 1, h := 1, n := 1, pcount := 1, idx := [(0, 0)] }

/-- The same under the other policy. -/
def readyOneFault : State := { readyOne with cfg := ⟨1, 1, .fault⟩ }

/-- A zero-area image (V-B2). -/
def readyEmpty : State := { State.reset with phase := .ready, w := 0, h := 3 }

/-- After V-R10: `RDPAL 3` in IDLE. -/
def faulted : State := { State.reset with phase := .fault, fcode := .sequenceError, finfo := 4 }

/-- A READY raster of one row with the given width, palette length and indices, in the default configuration. -/
def rasterRow (w : BitVec 16) (pcount : BitVec 5) (indices : List PaletteIndex) : State :=
  { State.reset with
    phase := .ready, w := w, h := 1, n := w.setWidth 32, pcount := pcount
    idx := (List.range indices.length).zip indices }

/-- The observation of the next state, if the outcome is one. -/
def after {α : Type} (o : Host.Outcome State Fault Refusal) (f : State → α) : Option α :=
  (nextState? o).map f

/-! ### Decoding: words written out bit by bit from R71-R78 -/

theorem test_decode_begin : decodeWord
    0b0000000100000000000000000000000000000000000010010000000000000010 =
      .ok (.begin 9 2) := by decide

theorem test_decode_pixel : decodeWord
    0b0000001000000000000000000000000000010010001101000101011011111111 =
      .ok (.pixel 0x12 0x34 0x56 0xFF) := by decide

theorem test_decode_encode : decodeWord
    0b0000001100000000000000000000000000000000000000000000000000000000 =
      .ok .encode := by decide

theorem test_decode_rdpal : decodeWord
    0b0000010000000000000000000000000000000000000000000000000000001101 =
      .ok (.rdpal 13) := by decide

theorem test_decode_rdidx : decodeWord
    0b0000010100000000000000000000000000000000000000010000000000000010 =
      .ok (.rdidx 1 2) := by decide

theorem test_decode_rdbpl : decodeWord
    0b0000011000000000000000000000000010000000000000000000000000000101 =
      .ok (.rdbpl 0x80000005) := by decide

theorem test_decode_rdstat : decodeWord
    0b0000011100000000000000000000000000000000000000000000000000000000 =
      .ok .rdstat := by decide

theorem test_decode_rdfinfo : decodeWord
    0b0000100000000000000000000000000000000000000000000000000000000000 =
      .ok .rdfinfo := by decide

theorem test_decode_srst : decodeWord
    0b0000111100000000000000000000000000000000000000000000000000000000 =
      .ok .srst := by decide

/-! ### Ill-formed words, one for each check (V-D1 to V-D5, R172) -/

theorem test_illformed_opcode_zero : legalWord 0 = false := by decide
theorem test_illformed_opcode_gap : legalWord 0x0900000000000000 = false := by decide
theorem test_illformed_opcode_high : legalWord 0xFF00000000000000 = false := by decide
theorem test_illformed_rsv : legalWord 0x0200000100000000 = false := by decide
theorem test_illformed_rdpal_area : legalWord 0x0400000000000010 = false := by decide
theorem test_illformed_z_area : legalWord 0x0300000000000001 = false := by decide
theorem test_illformed_rejected_by_name :
    decodeWord 0x0400000000000010 = .error .reservedBitsSet ∧
    decodeWord 0x0900000000000000 = .error .unassignedOpcode := by decide

/-- R86: an operand out of its field's range is an assembly error. -/
theorem test_illformed_asm_operand :
    assemble (.rdpal 16) = .error .operandRange ∧
    assemble (.begin 65536 1) = .error .operandRange ∧
    assemble (.pixel 0 0 256 0) = .error .operandRange := by decide

/-! ### Fetching -/

theorem test_table_word : decodeTableWord 64 0x0500000000010000 = some (.rdidx 1 0) := by decide

/-- V-B1, delivered as a word. -/
theorem test_fetch_begin :
    after (step (State.reset.withFetchWord 64 0x0100000000020001)) statusWord = some 1 := by decide

/-- V-D1: the all-zero word. -/
theorem test_fetch_illegal :
    after (step (State.reset.withFetchWord 64 0)) (fun s => (statusWord s, s.finfo)) =
      some (0x44, 0) := by decide

/-- V-D5: an illegal word in FAULT is ignored. -/
theorem test_fetch_illegal_in_fault :
    nextState? (step (faulted.withFetchWord 64 0xFF00000000000000)) = some faulted := by decide

/-! ### Commands -/

/-- V-B2. -/
theorem test_begin_zero_area :
    after (exec (.begin 0 3) State.reset) statusWord = some 2 := by decide

/-- V-B3. -/
theorem test_begin_too_wide :
    after (exec (.begin 321 1) { State.reset with cfg := ⟨320, 256, .onePlane⟩ })
      (fun s => (statusWord s, s.finfo)) = some (0x74, 1) := by decide

/-- V-P1 and V-P2: the second pixel differs in alpha and low nibbles only. -/
theorem test_pixel_dedup :
    (match exec (.pixel 0x12 0x34 0x56 0) building with
      | .next s => after (exec (.pixel 0x1A 0x3B 0x5C 0xFF) s)
          fun t => (t.idx, palEntry t 0, t.n, statusWord t)
      | _ => none) = some ([(0, 0), (1, 0)], 0x135, 2, 0x102) := by decide

/-- V-P3: the 17th color. -/
theorem test_pixel_overflow :
    after (exec (.pixel 0 0x10 0 0xFF) fullPalette) (fun s => (statusWord s, s.finfo)) =
      some (0x1014, 16) := by decide

/-- V-PK6: nine indices over two byte columns and four planes. -/
theorem test_encode_padded_row :
    after (exec .encode (rasterRow 9 9 [0, 1, 2, 3, 4, 5, 6, 7, 8])) (fun s => (s.np, s.bpl)) =
      some (4, [(0, 0x55), (1, 0x00), (2, 0x33), (3, 0x00), (4, 0x0F), (5, 0x00), (6, 0x00),
        (7, 0x80)]) := by decide

/-- V-PK4: three rows of one pixel, two planes interleaved by row. -/
theorem test_encode_interleaves_rows :
    after (exec .encode { rasterRow 1 3 [0, 1, 2] with h := 3 }) (·.bpl.map Prod.snd) =
      some [0x00, 0x00, 0x80, 0x00, 0x00, 0x80] := by decide

/-- V-R2. -/
theorem test_rdpal : after (exec (.rdpal 1) encodedA) (·.resp) = some 0x018200F0 := by decide

/-- V-R10: SequenceError comes before RangeError (R184). -/
theorem test_rdpal_idle : nextState? (exec (.rdpal 3) State.reset) = some faulted := by decide

/-- V-R4. -/
theorem test_rdidx : after (exec (.rdidx 1 0) encodedA) (·.resp) = some 1 := by decide

/-- V-R5. -/
theorem test_rdidx_range :
    after (exec (.rdidx 2 0) encodedA) (fun s => (s.fcode, s.finfo)) = some (.rangeError, 5) := by
  decide

/-- V-R6. -/
theorem test_rdbpl : after (exec (.rdbpl 0) encodedA) (·.resp) = some 0x40 := by decide

/-- V-R7. -/
theorem test_rdbpl_range :
    after (exec (.rdbpl 1) encodedA) (fun s => (statusWord s, s.finfo)) = some (0x00010264, 6) := by
  decide

/-- V-R11. -/
theorem test_rdstat : after (exec .rdstat encodedA) (·.resp) = some 0x00010203 := by decide

/-- The `FINFO` of V-R10, read in FAULT. -/
theorem test_rdfinfo : after (exec .rdfinfo faulted) (·.resp) = some 4 := by decide

/-- V-D6. -/
theorem test_srst : nextState? (exec .srst faulted) = some State.reset := by decide

/-! ### Functions, artifacts, assembly -/

/-- V-Q10, V-PW3. -/
theorem test_quantize_palWord :
    quantize 0x12 0x34 0x56 = 0x135 ∧ palWord 0xABC = 0x0ABC := by decide

/-- V-SC1: the script line's sixteen bytes. -/
theorem test_scriptLine : scriptLine 0x01800F00 =
    [0x09, 0x64, 0x63, 0x2E, 0x77, 0x20, 0x24, 0x31, 0x38, 0x30, 0x2C, 0x24, 0x66, 0x30, 0x30,
      0x0A] := by decide

/-- Program 1: both artifacts. -/
theorem test_artifacts : (artifacts encodedA).map Prod.snd = some [0x40] ∧
    (artifacts encodedA).map (fun a => a.1.map (·.toNat)) =
      some ("\tdc.w $180,$f00\n\tdc.w $182,$f0\n".toList.map Char.toNat) := by decide

/-- R86, R87: a comment, both number forms, and the pseudo-instruction. -/
theorem test_assemble_text :
    assembleText "SRST\nPIXEL 0x12, 52,86 ; alpha is 255\n\nRDIDX 1, 0x0\n".toList =
      .ok [0x0F00000000000000, 0x02000000123456FF, 0x0500000000010000] := by decide

/-! ### Witnesses: states and operands that meet the hypotheses of each statement -/

/-- An 8x1 image with alternating indices, encoded: no padding. -/
def encoded8 : State :=
  { State.reset with
    phase := .encoded, w := 8, h := 1, n := 8, pcount := 2, np := 1
    pal := palFile [0xF00, 0x0F0], bpl := [(0, 0x55)]
    idx := (List.range 8).map fun k => (k, BitVec.ofNat 4 (k % 2)) }

/-- A 17x1 image with no pixel yet. -/
def opening17 : State := { State.reset with phase := .build, w := 17, h := 1 }

/-- `encodedA` with other contents in every place that is not live. -/
def encodedADead : State :=
  { encodedA with
    pal := palFile [0xF00, 0x0F0, 0xABC], idx := [(0, 0), (1, 1), (9, 9)]
    bpl := [(0, 0x40), (1, 0xFF)] }

/-- 17 pixels of 17 distinct Quantized Colors. -/
def pixels17 : List Pixel :=
  (List.range 17).map fun k => (BitVec.ofNat 8 (16 * k), BitVec.ofNat 8 k, 0, 255)

/-- The pixels of Scenario A. -/
def twoColors : List Pixel := [(255, 0, 0, 255), (0, 255, 0, 255)]

/-- Two pixels of one Quantized Color. -/
def oneColor : List Pixel := [(255, 0, 0, 255), (0xF0, 15, 0, 0)]

/-- A small QP: images up to 320x256. -/
def small : State := { State.reset with cfg := ⟨320, 256, .onePlane⟩ }

theorem inv_building : Inv building := by constructor <;> decide
theorem inv_opening17 : Inv opening17 := by constructor <;> decide
theorem inv_readyA : Inv readyA := by constructor <;> decide
theorem inv_encodedA : Inv encodedA := by constructor <;> decide
theorem inv_encodedADead : Inv encodedADead := by constructor <;> decide
theorem inv_encoded8 : Inv encoded8 := by constructor <;> decide
theorem inv_fullPalette : Inv fullPalette := by constructor <;> decide
theorem inv_readyOne : Inv readyOne := by constructor <;> decide
theorem inv_readyEmpty : Inv readyEmpty := by constructor <;> decide
theorem inv_faulted : Inv faulted := by constructor <;> decide

/-! Encoding and the step. -/

theorem witness_DecoderAcceptsExactlyTheLegalWords : ∃ row ∈ opcodeRows,
    decodeWord 0x040000000000000F = .ok (.rdpal 15) ∧
      row.matchesWord 0x040000000000000F = true := by decide

theorem witness_StepRunsTheDecodedCommand :
    (presentWord 0x0F00000000000000 faulted).port = .command 0x0F00000000000000 :: [] ∧
    decodeWord 0x0F00000000000000 = .ok .srst := by decide

theorem witness_StepConsumesTheOldestEvent : (∃ t, step State.reset = .next t) ∧
    ∃ t, step { building with port := [.reset, .command 0] } = .next t := ⟨⟨_, rfl⟩, _, rfl⟩

theorem witness_IllegalWordRaisesIllegalCommand :
    (presentWord 0x0400000000000010 readyA).port = .command 0x0400000000000010 :: [] ∧
    readyA.phase ≠ .fault ∧ legalWord 0x0400000000000010 = false := by decide

theorem witness_FaultPhaseIgnoresEveryOtherCommand :
    (presentWord 0 faulted).port = .command 0 :: [] ∧ faulted.phase = .fault ∧
    decodeWord 0 ≠ .ok .srst ∧ decodeWord 0 ≠ .ok .rdstat ∧ decodeWord 0 ≠ .ok .rdfinfo := by decide

theorem witness_ResetInputHasTheEffectOfSrst :
    { faulted with port := [.reset] }.port = PortEvent.reset :: [] := by decide

/-! The Palette Builder. -/

theorem witness_PixelIgnoresAlphaAndLowNibbles :
    (0xF0 : Channel).toNat / 16 = (0xFF : Channel).toNat / 16 ∧
    (0x00 : Channel).toNat / 16 = (0x0F : Channel).toNat / 16 := by decide

theorem witness_LookupIsTheLeastMatchingLiveIndex :
    fullPalette.pcount.toNat ≤ 16 ∧ State.reset.pcount.toNat ≤ 16 := by decide

/-- A faulted state, one column and one row too many, and the largest image a small QP accepts. -/
theorem witness_BeginOpensAnImage :
    faulted.phase = .fault ∧
    (small.phase ≠ .fault ∧ (small.cfg.maxW < (321#16).toNat ∨ small.cfg.maxH < (1#16).toNat)) ∧
    (small.phase ≠ .fault ∧ (small.cfg.maxW < (1#16).toNat ∨ small.cfg.maxH < (257#16).toNat)) ∧
    (small.phase ≠ .fault ∧ (320#16).toNat ≤ small.cfg.maxW ∧ (256#16).toNat ≤ small.cfg.maxH) := by
  decide

/-- One state for each clause: FAULT, READY, a full palette with a 17th color, its last live color, and an empty
palette with the first color. -/
theorem witness_PixelAcceptsTheNextPixel :
    faulted.phase = .fault ∧ (readyA.phase ≠ .fault ∧ readyA.phase ≠ .build) ∧
    (fullPalette.phase = .build ∧ fullPalette.pcount = 16 ∧
      ∀ i : PaletteIndex, palEntry fullPalette i ≠ quantize 0 0x10 0) ∧
    (Inv fullPalette ∧ fullPalette.phase = .build ∧
      (15#4).toNat < fullPalette.pcount.toNat ∧ palEntry fullPalette 15 = quantize 0xF0 0 0) ∧
    (Inv building ∧ building.phase = .build ∧ building.pcount.toNat < 16 ∧
      ∀ i : PaletteIndex, i.toNat < building.pcount.toNat →
        palEntry building i ≠ quantize 255 0 0) :=
  ⟨by decide, by decide, by decide, ⟨inv_fullPalette, by decide⟩, inv_building, by decide⟩

theorem witness_PixelOverflowsExactlyOnASeventeenthColor :
    Inv fullPalette ∧ fullPalette.phase = .build := ⟨inv_fullPalette, by decide⟩

theorem witness_PixelFrame :
    (∃ t, exec (.pixel 255 0 0 255) building = .next t ∧ t.phase ≠ .fault) ∧
    ∃ t, exec (.pixel 0 0x10 0 0) fullPalette = .next t ∧ t.phase = .fault :=
  ⟨⟨_, rfl, by decide⟩, _, rfl, by decide⟩

theorem witness_LivePaletteOnlyGrowsAtItsEnd : ∃ t,
    Inv building ∧ exec (.pixel 255 0 0 255) building = .next t ∧
    (∀ w h, Instr.pixel 255 0 0 255 ≠ .begin w h) ∧ Instr.pixel 255 0 0 255 ≠ .srst :=
  ⟨_, inv_building, rfl, nofun, nofun⟩

theorem witness_PaletteHoldsFirstOccurrencesInOrder :
    (Inv building ∧ building.phase = .build ∧ building.n = 0 ∧
      twoColors.length = building.w.toNat * building.h.toNat ∧
      (firstOccurrences (twoColors.map pixelColor)).length ≤ 16) ∧
    (Inv opening17 ∧ opening17.phase = .build ∧ opening17.n = 0 ∧
      ((pixels17.take 16) ++ [(0, 0, 0, 0)]).length = opening17.w.toNat * opening17.h.toNat ∧
      (firstOccurrences (((pixels17.take 16) ++ [(0, 0, 0, 0)]).map pixelColor)).length ≤ 16) :=
  ⟨⟨inv_building, by decide⟩, inv_opening17, by decide⟩

theorem witness_SeventeenthColorRaisesPaletteOverflow :
    Inv opening17 ∧ opening17.phase = .build ∧ opening17.n = 0 ∧
    pixels17.length ≤ opening17.w.toNat * opening17.h.toNat ∧ 16 < pixels17.length ∧
    (firstOccurrences ((pixels17.map pixelColor).take 16)).length = 16 ∧
    (firstOccurrences ((pixels17.map pixelColor).take (16 + 1))).length = 17 :=
  ⟨inv_opening17, by decide⟩

/-! The Bitplane Encoder. -/

theorem witness_PackedByteHoldsPlaneBitsLeftmostFirst :
    (∃ v, packByte encodedA 0 0 0 = .ok v) ∧
    (8 * 0 + (7 - 6) < encodedA.w.toNat ∧ encodedA.w.toNat ≤ 8 * 0 + (7 - 5)) ∧
    (Inv readyA ∧ (readyA.phase = .ready ∨ readyA.phase = .encoded) ∧ 0 < readyA.h.toNat) :=
  ⟨⟨_, rfl⟩, by decide, inv_readyA, by decide⟩

/-- One state for each clause; the last clause with one color and with two. -/
theorem witness_EncodePacksTheBitplaneBuffer :
    faulted.phase = .fault ∧ (encodedA.phase ≠ .fault ∧ encodedA.phase ≠ .ready) ∧
    (readyEmpty.phase = .ready ∧ readyEmpty.pcount = 0) ∧
    (readyOneFault.phase = .ready ∧ readyOneFault.pcount = 1 ∧ readyOneFault.cfg.policy = .fault) ∧
    (Inv readyOne ∧ readyOne.phase = .ready ∧ readyOne.pcount ≠ 0 ∧
      ¬(readyOne.pcount = 1 ∧ readyOne.cfg.policy = .fault)) ∧
    (Inv readyA ∧ readyA.phase = .ready ∧ readyA.pcount ≠ 0 ∧
      ¬(readyA.pcount = 1 ∧ readyA.cfg.policy = .fault)) :=
  ⟨by decide, by decide, by decide, by decide, ⟨inv_readyOne, by decide⟩, inv_readyA, by decide⟩

theorem witness_EncodeFrame : (∃ t, exec .encode readyA = .next t ∧ t.phase ≠ .fault) ∧
    ∃ t, exec .encode readyEmpty = .next t ∧ t.phase = .fault :=
  ⟨⟨_, rfl, by decide⟩, _, rfl, by decide⟩

theorem witness_PaddingBitsAreZero : (Inv encodedA ∧ encodedA.phase = .encoded) ∧
    (Inv encoded8 ∧ encoded8.phase = .encoded ∧ encoded8.w.toNat % 8 = 0) :=
  ⟨⟨inv_encodedA, by decide⟩, inv_encoded8, by decide⟩

theorem witness_PlanesSufficeForEveryIndex :
    (Inv readyOne ∧ planes readyOne.cfg.policy readyOne.pcount.toNat = .ok 1) ∧
    (Inv fullPalette ∧ planes fullPalette.cfg.policy fullPalette.pcount.toNat = .ok 4) :=
  ⟨⟨inv_readyOne, by decide⟩, inv_fullPalette, by decide⟩

/-- Padding columns 2 and 7 of a 2x1 image. -/
theorem witness_BitplaneBufferGivesBackTheRaster :
    Inv encodedA ∧ encodedA.phase = .encoded ∧ 1 < encodedA.w.toNat ∧ 0 < encodedA.h.toNat ∧
    encodedA.w.toNat ≤ 2 ∧ 7 < 8 * byteWidth encodedA.w.toNat ∧ 0 < encodedA.np.toNat :=
  ⟨inv_encodedA, by decide⟩

/-! Reads. -/

theorem witness_RdpalReturnsAddressAndPaletteWord :
    faulted.phase = .fault ∧ (building.phase = .idle ∨ building.phase = .build) ∧
    ((readyA.phase = .ready ∨ readyA.phase = .encoded) ∧ readyA.pcount.toNat ≤ (2#4).toNat) ∧
    ((encodedA.phase = .ready ∨ encodedA.phase = .encoded) ∧
      (1#4).toNat < encodedA.pcount.toNat) := by decide

theorem witness_RdidxReturnsTheIndexCell :
    faulted.phase = .fault ∧ (building.phase = .idle ∨ building.phase = .build) ∧
    ((readyA.phase = .ready ∨ readyA.phase = .encoded) ∧
      (readyA.w.toNat ≤ (2#16).toNat ∨ readyA.h.toNat ≤ (0#16).toNat)) ∧
    ((readyA.phase = .ready ∨ readyA.phase = .encoded) ∧
      (readyA.w.toNat ≤ (0#16).toNat ∨ readyA.h.toNat ≤ (1#16).toNat)) ∧
    (Inv encodedA ∧ (encodedA.phase = .ready ∨ encodedA.phase = .encoded) ∧
      (1#16).toNat < encodedA.w.toNat ∧ (0#16).toNat < encodedA.h.toNat) :=
  ⟨by decide, by decide, by decide, by decide, inv_encodedA, by decide⟩

theorem witness_RdbplReturnsTheBufferByte :
    faulted.phase = .fault ∧ (readyA.phase ≠ .fault ∧ readyA.phase ≠ .encoded) ∧
    (encodedA.phase = .encoded ∧
      (encodedA.w.toNat + 7) / 8 * encodedA.h.toNat * encodedA.np.toNat ≤ (1#32).toNat) ∧
    (Inv encodedA ∧ encodedA.phase = .encoded ∧
      (0#32).toNat < (encodedA.w.toNat + 7) / 8 * encodedA.h.toNat * encodedA.np.toNat) :=
  ⟨by decide, by decide, by decide, inv_encodedA, by decide⟩

theorem witness_ReadsChangeOnlyTheResponseAndAreIdempotent :
    (∃ t, exec (.rdpal 1) encodedA = .next t) ∧ (∃ t, exec (.rdidx 2 0) encodedA = .next t) ∧
    (∃ t, exec (.rdbpl 0) encodedA = .next t) ∧ (∃ t, exec .rdstat faulted = .next t) ∧
    ∃ t, exec .rdfinfo faulted = .next t :=
  ⟨⟨_, rfl⟩, ⟨_, rfl⟩, ⟨_, rfl⟩, ⟨_, rfl⟩, _, rfl⟩

/-! Reset, faults and phases. -/

/-- Registers that no run leaves: before the first reset they may hold anything. -/
theorem witness_SrstEstablishesTheInvariant :
    PowerOn { encodedA with pcount := 31, np := 7, w := 0xFFFF, fcode := .rangeError } := by
  constructor <;> decide

theorem witness_FaultEntryWritesOnlyTheFaultRecord : ∃ t,
    step (presentWord 0 readyA) = .next t ∧ (presentWord 0 readyA).phase ≠ .fault ∧
    t.phase = .fault := ⟨_, rfl, by decide, by decide⟩

/-- Each fault code that a command raises, and the state it raises it in. -/
theorem witness_FaultRecordNamesCauseAndPlace :
    after (exec (.pixel 0 0x10 0 0) fullPalette) (fun t => (t.phase, t.fcode)) =
      some (.fault, .paletteOverflow) ∧
    after (exec .encode readyEmpty) (fun t => (t.phase, t.fcode)) = some (.fault, .emptyImage) ∧
    after (exec .encode readyOneFault) (fun t => (t.phase, t.fcode)) =
      some (.fault, .singleColorUndefined) ∧
    after (exec .encode encodedA) (fun t => (t.phase, t.fcode)) = some (.fault, .sequenceError) ∧
    after (exec (.rdbpl 1) encodedA) (fun t => (t.phase, t.fcode)) = some (.fault, .rangeError) ∧
    after (exec (.begin 1 257) small) (fun t => (t.phase, t.fcode)) =
      some (.fault, .capacityExceeded) := by decide

theorem witness_FaultIsLeftOnlyByReset : faulted.phase = .fault ∧
    (∃ t, step (presentWord 0x0100000000020001 faulted) = .next t) ∧
    (∃ t, step (presentWord 0x0F00000000000000 faulted) = .next t) ∧
    ∃ t, step { faulted with port := [.reset] } = .next t :=
  ⟨by decide, ⟨_, rfl⟩, ⟨_, rfl⟩, _, rfl⟩

theorem witness_PhaseChangesFollowTheTable : ∃ t, Inv building ∧ step building = .next t :=
  ⟨_, inv_building, rfl⟩

/-- For each register and RAM a command that changes it. -/
theorem witness_StateIsWrittenOnlyByItsCommands :
    after (exec (.begin 2 1) State.reset) (fun t => t.phase ≠ .idle ∧ t.w ≠ 0 ∧ t.h ≠ 0) =
      some True ∧
    after (exec (.rdpal 3) State.reset) (fun t => t.fcode ≠ .none ∧ t.finfo ≠ 0) = some True ∧
    after (exec (.pixel 255 0 0 0) building)
      (fun t => t.n ≠ 0 ∧ t.pcount ≠ 0 ∧ t.pal ≠ building.pal ∧ t.idx ≠ []) = some True ∧
    after (exec .encode readyA) (fun t => t.np ≠ 0 ∧ t.bpl ≠ []) = some True ∧
    after (exec .rdstat readyA) (fun t => t.resp ≠ 0) = some True := by
  refine ⟨?_, ?_, ?_, ?_, ?_⟩ <;> exact congrArg some (eq_true (by decide))

theorem witness_CompleteImageIsImmutable : ∃ t,
    exec .encode readyA = .next t ∧ (readyA.phase = .ready ∨ readyA.phase = .encoded) ∧
    (∀ w h, Instr.encode ≠ .begin w h) ∧ Instr.encode ≠ .srst :=
  ⟨_, rfl, by decide, nofun, nofun⟩

theorem witness_RegisterOnlyCommandsFrame :
    (∃ t, exec (.begin 1 1) encodedA = .next t ∧ t.phase ≠ .fault) ∧
    Instr.begin 1 1 ≠ .encode ∧ (∀ r g b a, Instr.begin 1 1 ≠ .pixel r g b a) ∧
    Instr.begin 1 1 ≠ .srst := ⟨⟨_, rfl, by decide⟩, nofun, nofun, nofun⟩

/-! The invariant and the artifacts. -/

theorem witness_StepKeepsTheInvariant : ∃ t, Inv faulted ∧ step faulted = .next t :=
  ⟨_, inv_faulted, rfl⟩

theorem witness_InvariantStatesAlwaysStep : Inv readyEmpty := inv_readyEmpty

theorem witness_DeadContentsAreUnobservable : ∃ t, Inv encodedA ∧ Inv encodedADead ∧
    LiveAgree encodedA encodedADead ∧ encodedA ≠ encodedADead ∧
    exec (.rdbpl 0) encodedA = .next t :=
  ⟨_, inv_encodedA, inv_encodedADead, by constructor <;> decide, by decide, rfl⟩

theorem witness_MemoriesThatReadAlikeAreEqual :
    Memory.wf (w := 4) [(0, 1), (7, 2)] = true ∧ Memory.wf (w := 8) [] = true := by decide

/-- A two-color image, and a one-color image under the default policy. -/
theorem witness_WholeImageIsEncodedFaithfully :
    PowerOn faulted ∧ (2#16).toNat ≤ faulted.cfg.maxW ∧ (1#16).toNat ≤ faulted.cfg.maxH ∧
    (twoColors.length = (2#16).toNat * (1#16).toNat ∧ twoColors ≠ [] ∧
      (firstOccurrences (twoColors.map pixelColor)).length ≤ 16 ∧
      ((firstOccurrences (twoColors.map pixelColor)).length = 1 → faulted.cfg.policy = .onePlane)) ∧
    (oneColor.length = (2#16).toNat * (1#16).toNat ∧ oneColor ≠ [] ∧
      (firstOccurrences (oneColor.map pixelColor)).length ≤ 16 ∧
      ((firstOccurrences (oneColor.map pixelColor)).length = 1 → faulted.cfg.policy = .onePlane)) :=
  ⟨by constructor <;> decide, by decide, by decide, by decide, by decide⟩

theorem witness_PaletteScriptComesFromTheReads : Inv encodedA ∧
    (encodedA.phase = .ready ∨ encodedA.phase = .encoded) ∧ (1#4).toNat < encodedA.pcount.toNat :=
  ⟨inv_encodedA, by decide⟩

theorem witness_BitplaneBinaryComesFromTheReads : Inv encoded8 ∧ encoded8.phase = .encoded :=
  ⟨inv_encoded8, by decide⟩

theorem witness_ArtifactsExistExactlyInEncoded : Inv encodedA ∧ Inv readyA :=
  ⟨inv_encodedA, inv_readyA⟩

end Sys2Proof.Tests
end

section
/-! Bitlength against the binary logarithm (spec/00_scope.md R10). -/

namespace Sys2Proof.Machine

@[simp] theorem bitlength_zero : bitlength 0 = 0 := rfl

theorem bitlength_eq_log2_succ {v : Nat} (hv : v ≠ 0) : bitlength v = Nat.log2 v + 1 := by
  have upper : bitlength v ≤ Nat.log2 v + 1 := bitlength_le_of_lt Nat.lt_log2_self
  have lower : Nat.log2 v < bitlength v := (Nat.log2_lt hv).mpr (lt_two_pow_bitlength v)
  exact Nat.le_antisymm upper lower

/-- Settles O22: `v` fits in `bitlength v` digits and in no fewer, so its leading digit stands at place
`Nat.log2 v`. -/
theorem bitlengthCountsBinaryDigits : Obligations.BitlengthCountsBinaryDigits :=
  ⟨bitlength_zero, fun v hv =>
    ⟨lt_two_pow_bitlength v, fun _ hn => bitlength_le_of_lt hn,
      bitlength_eq_log2_succ (Nat.ne_of_gt hv)⟩⟩

end Sys2Proof.Machine
end

section
/-! What the invariant of spec/10_state.md R35 gives a command: the raster fits the index RAM, every accepted
cell can be read, every byte of an encoded buffer can be read, and no counter wraps. -/

namespace Sys2Proof.Machine

variable {s : State}

theorem area_lt_two_pow (s : State) : area s < 2 ^ 32 :=
  calc area s < 2 ^ 16 * 2 ^ 16 := Nat.mul_lt_mul'' s.w.isLt s.h.isLt
    _ = 2 ^ 32 := by norm_num

/-- Below `W*H` the pixel cursor does not wrap (R27). -/
theorem n_succ_toNat (h : s.n.toNat < area s) : (s.n + 1).toNat = s.n.toNat + 1 := by
  have hlt : s.n.toNat + 1 < 2 ^ 32 := (Nat.succ_le_of_lt h).trans_lt (area_lt_two_pow s)
  simpa [BitVec.toNat_add] using hlt

/-- Below the capacity the fill count does not wrap (R25). -/
theorem pcount_succ_toNat (h : s.pcount.toNat < palCap) :
    (s.pcount + 1).toNat = s.pcount.toNat + 1 := by
  have hlt : s.pcount.toNat + 1 < 2 ^ 5 := (Nat.succ_le_of_lt h).trans_lt (by decide)
  simpa [BitVec.toNat_add] using hlt

/-- The cell of a pixel inside the raster is one of the `W*H` first cells (R51). -/
theorem idxAddr_lt_area {x y : Nat} (hx : x < s.w.toNat) (hy : y < s.h.toNat) :
    idxAddr s x y < area s := by
  rw [area, Nat.mul_comm]
  exact mul_add_lt hy hx

/-- The image fits the index RAM (D33). -/
theorem Inv.area_le_idxCap (h : Inv s) : area s ≤ idxCap s.cfg := Nat.mul_le_mul h.w_le h.h_le

/-- The cell of every accepted pixel can be read, and it holds a live index (R35 item 2). -/
theorem Inv.exists_readIdx (h : Inv s) {k : Nat} (hk : k < s.n.toNat) :
    ∃ v, readIdx s k = .ok v ∧ v.toNat < s.pcount.toNat := by
  obtain ⟨v, hv, hlive⟩ := h.idx_live k hk
  have hcap : k < idxCap s.cfg := hk.trans_le (h.n_le.trans h.area_le_idxCap)
  exact ⟨v, readIdx_eq_ok.mpr ⟨hcap, hv⟩, hlive⟩

/-- In READY and ENCODED the whole raster can be read (R35 item 4). -/
theorem Inv.exists_readIdx_of_full (h : Inv s) (hp : s.phase = .ready ∨ s.phase = .encoded) {k : Nat}
    (hk : k < area s) : ∃ v, readIdx s k = .ok v := by
  obtain ⟨v, hv, -⟩ := h.exists_readIdx (by rw [h.raster_full hp]; exact hk)
  exact ⟨v, hv⟩

/-- The bitplane buffer of an encoded image fits the bitplane RAM (D33). -/
theorem Inv.bplSize_le_bplCap (h : Inv s) (he : s.phase = .encoded) : bplSize s ≤ bplCap s.cfg := by
  obtain ⟨hplanes, -⟩ := h.np_encoded he
  obtain ⟨-, hnp, -⟩ := planes_bounds hplanes h.pcount_le
  exact Nat.mul_le_mul (Nat.mul_le_mul (byteWidth_mono h.w_le) h.h_le) hnp

/-- Every byte of the buffer of an encoded image can be read (R127). -/
theorem Inv.exists_readBpl (h : Inv s) (he : s.phase = .encoded) {o : Nat} (ho : o < bplSize s) :
    ∃ v, readBpl s o = .ok v := by
  obtain ⟨hy, hp, hb, heq⟩ := bplOffset_of_offset ho
  obtain ⟨v, hv, -⟩ := h.bpl_packed he _ hy _ hp _ hb
  rw [heq] at hv
  exact ⟨v, readBpl_eq_ok.mpr ⟨ho.trans_le (h.bplSize_le_bplCap he), hv⟩⟩

end Sys2Proof.Machine
end

section
/-! Everything a command can do, said once for all nine: the seven kinds of effect, from which the invariant, the
table of phases and the writers of each register follow by one case each. -/

namespace Sys2Proof.Machine

variable {s t u : State} {c : Color} {i : PaletteIndex}

/-- The palette step of an accepted pixel (R107): the state `u` whose palette holds the color `c` at index `i`,
which is the state as it was if `c` is live, and the state with `c` appended otherwise. -/
inductive PaletteStep (c : Color) (s : State) : State → PaletteIndex → Prop
  | known {i : PaletteIndex} (found : lookup s c = some i) : PaletteStep c s s i
  | appended (absent : lookup s c = none) (room : s.pcount ≠ 16) :
      PaletteStep c s (appendColor c s) (s.pcount.setWidth 4)

/-- The commands that the FAULT-phase filter ignores and that can raise a fault (R173). -/
def ignoredInFault : Instr → Bool
  | .begin _ _ => true
  | .pixel _ _ _ _ => true
  | .encode => true
  | .rdpal _ => true
  | .rdidx _ _ => true
  | .rdbpl _ => true
  | .rdstat => false
  | .rdfinfo => false
  | .srst => false

/-- The five reads (R32, R57). -/
def isRead : Instr → Bool
  | .begin _ _ => false
  | .pixel _ _ _ _ => false
  | .encode => false
  | .rdpal _ => true
  | .rdidx _ _ => true
  | .rdbpl _ => true
  | .rdstat => true
  | .rdfinfo => true
  | .srst => false

/-- What a command does, by kind of effect. -/
inductive Effect (s : State) : Instr → State → Prop
  /-- Ignored in FAULT (R173). -/
  | ignored {i : Instr} (faulted : s.phase = .fault)
      (kind : ignoredInFault i = true) : Effect s i s
  /-- A fault raised (R183). -/
  | raised {i : Instr} {code : FaultCode} {info : Word32} (live : s.phase ≠ .fault)
      (named : code ≠ .none) (kind : ignoredInFault i = true) :
      Effect s i (raiseFault code info s)
  /-- A read that succeeds (R57). -/
  | responded {i : Instr} {v : Word32} (kind : isRead i = true) : Effect s i (respond v s)
  /-- SRST (R174). -/
  | cleared : Effect s .srst (resetRegisters s)
  /-- An accepted BEGIN (R104). -/
  | opened {w h : BitVec 16} (live : s.phase ≠ .fault) (fits : imageFits s.cfg w h = true) :
      Effect s (.begin w h) (openImage w h s)
  /-- An accepted PIXEL (R107). -/
  | recorded {r g b a : Channel} {u t : State} {i : PaletteIndex} (building : s.phase = .build)
      (palette : PaletteStep (quantize r g b) s u i) (stored : recordIndex i u = .ok t) :
      Effect s (.pixel r g b a) t
  /-- An ENCODE that succeeds (R126). -/
  | packed {np : Nat} {t : State} (ready : s.phase = .ready)
      (count : planes s.cfg.policy s.pcount.toNat = .ok np) (filled : encodeImage np s = .ok t) :
      Effect s .encode t

theorem effect_of_exec {i : Instr} (h : exec i s = .next t) : Effect s i t := by
  cases i with
  | begin w h' =>
    obtain ⟨hf, rfl⟩ | ⟨hl, -, rfl⟩ | ⟨hl, hfit, rfl⟩ := exec_begin_eq_next.mp h
    · exact .ignored hf rfl
    · exact .raised hl nofun rfl
    · exact .opened hl hfit
  | pixel r g b a =>
    obtain ⟨hf, rfl⟩ | ⟨hl, -, rfl⟩ | ⟨hb, -, -, rfl⟩ | ⟨hb, habs, hroom, hr⟩ | ⟨hb, k, hk, hr⟩ :=
      exec_pixel_eq_next.mp h
    · exact .ignored hf rfl
    · exact .raised hl nofun rfl
    · exact .raised (by simp [hb]) nofun rfl
    · exact .recorded hb (.appended habs hroom) hr
    · exact .recorded hb (.known hk) hr
  | encode =>
    obtain ⟨hf, rfl⟩ | ⟨hl, -, rfl⟩ | ⟨hr, code, hp, rfl⟩ | ⟨hr, np, hp, he⟩ :=
      exec_encode_eq_next.mp h
    · exact .ignored hf rfl
    · exact .raised hl nofun rfl
    · have named : code ≠ .none := by
        obtain ⟨rfl, -⟩ | ⟨rfl, -⟩ := planes_eq_error hp <;> exact nofun
      exact .raised (by simp [hr]) named rfl
    · exact .packed hr hp he
  | rdpal k =>
    obtain ⟨hf, rfl⟩ | ⟨hl, -, rfl⟩ | ⟨hp, -, rfl⟩ | ⟨-, -, rfl⟩ := exec_rdpal_eq_next.mp h
    · exact .ignored hf rfl
    · exact .raised hl nofun rfl
    · exact .raised (by rintro hf; simp [hf] at hp) nofun rfl
    · exact .responded rfl
  | rdidx x y =>
    obtain ⟨hf, rfl⟩ | ⟨hl, -, rfl⟩ | ⟨hp, -, rfl⟩ | ⟨-, -, v, -, rfl⟩ := exec_rdidx_eq_next.mp h
    · exact .ignored hf rfl
    · exact .raised hl nofun rfl
    · exact .raised (by rintro hf; simp [hf] at hp) nofun rfl
    · exact .responded rfl
  | rdbpl off =>
    obtain ⟨hf, rfl⟩ | ⟨hl, -, rfl⟩ | ⟨hp, -, rfl⟩ | ⟨-, -, v, -, rfl⟩ := exec_rdbpl_eq_next.mp h
    · exact .ignored hf rfl
    · exact .raised hl nofun rfl
    · exact .raised (by simp [hp]) nofun rfl
    · exact .responded rfl
  | rdstat => exact exec_rdstat_eq_next.mp h ▸ .responded rfl
  | rdfinfo => exact exec_rdfinfo_eq_next.mp h ▸ .responded rfl
  | srst => exact exec_srst_eq_next.mp h ▸ .cleared

/-! ### The palette step of an accepted pixel -/

theorem PaletteStep.registers (h : PaletteStep c s u i) :
    ∃ pal count, u = { s with pal := pal, pcount := count } := by
  cases h with
  | known => exact ⟨s.pal, s.pcount, rfl⟩
  | appended => exact ⟨_, _, rfl⟩

/-- A fill count in range that is not 16 leaves room for one more color. -/
theorem pcount_lt_palCap (hle : s.pcount.toNat ≤ palCap) (hne : s.pcount ≠ 16) :
    s.pcount.toNat < palCap :=
  Nat.lt_of_le_of_ne hle fun heq => hne (BitVec.eq_of_toNat_eq heq)

/-- A state with the same palette and fill count has the same live palette, grown by nothing. -/
theorem livePal_grows_of_eq (hp : t.pal = s.pal) (hc : t.pcount = s.pcount) :
    livePal s <+: livePal t :=
  ⟨[], by rw [List.append_nil, livePal_congr hp hc]⟩

section Bounded

variable (hle : s.pcount.toNat ≤ palCap)
include hle

/-- The live palette is kept, or extended at its end (R24). -/
theorem PaletteStep.livePal_grows (h : PaletteStep c s u i) : livePal s <+: livePal u := by
  cases h with
  | known => exact livePal_grows_of_eq rfl rfl
  | appended _ room =>
    rw [livePal_appendColor (pcount_lt_palCap hle room)]
    exact ⟨[c], rfl⟩

theorem PaletteStep.pcount_le (h : PaletteStep c s u i) : u.pcount.toNat ≤ palCap := by
  cases h with
  | known => exact hle
  | appended _ room =>
    have hroom := pcount_lt_palCap hle room
    rw [appendColor_pcount, pcount_succ_toNat hroom]
    exact hroom

theorem PaletteStep.pcount_le_succ (h : PaletteStep c s u i) :
    u.pcount.toNat ≤ s.pcount.toNat + 1 := by
  cases h with
  | known => exact Nat.le_succ _
  | appended _ room =>
    rw [appendColor_pcount, pcount_succ_toNat (pcount_lt_palCap hle room)]

theorem PaletteStep.le_pcount (h : PaletteStep c s u i) : s.pcount.toNat ≤ u.pcount.toNat := by
  have := (h.livePal_grows hle).length_le
  rwa [livePal_length hle, livePal_length (h.pcount_le hle)] at this

theorem PaletteStep.index_live (h : PaletteStep c s u i) : i.toNat < u.pcount.toNat := by
  cases h with
  | known found => exact ((lookup_eq_some hle).mp found).1
  | appended _ room =>
    have hroom := pcount_lt_palCap hle room
    rw [appendColor_pcount, pcount_succ_toNat hroom, BitVec.toNat_setWidth]
    exact Nat.lt_succ_of_le (Nat.mod_le _ _)

/-- Every entry live after the step was live before, or is the one the pixel uses. -/
theorem PaletteStep.entry_old_or_used (h : PaletteStep c s u i) {j : Nat}
    (hj : j < u.pcount.toNat) : j < s.pcount.toNat ∨ BitVec.ofNat 4 j = i := by
  cases h with
  | known => exact .inl hj
  | appended _ room =>
    rw [appendColor_pcount, pcount_succ_toNat (pcount_lt_palCap hle room)] at hj
    obtain hold | rfl := Nat.lt_succ_iff_lt_or_eq.mp hj
    · exact .inl hold
    · exact .inr (by rw [BitVec.ofNat_toNat])

/-- A color is appended only if it is not live, so the live entries stay pairwise distinct (R35 item 1). -/
theorem PaletteStep.livePal_nodup (h : PaletteStep c s u i) (hnodup : (livePal s).Nodup) :
    (livePal u).Nodup := by
  cases h with
  | known => exact hnodup
  | appended absent room =>
    rw [livePal_appendColor (pcount_lt_palCap hle room)]
    exact List.nodup_append_comm.mp
      (List.nodup_cons.mpr ⟨lookup_eq_none.mp absent, hnodup⟩)

end Bounded

/-- An accepted pixel advances the cursor, and the last one completes the image (R107). -/
theorem recordIndex_n_phase (hb : s.phase = .build) (hopen : s.n.toNat < area s)
    (hu : PaletteStep c s u i) (hr : recordIndex i u = .ok t) :
    t.n.toNat = s.n.toNat + 1 ∧
      ((t.n.toNat = area s ∧ t.phase = .ready) ∨ (t.n.toNat < area s ∧ t.phase = .build)) := by
  obtain ⟨-, rfl⟩ := recordIndex_eq_ok.mp hr
  obtain ⟨pal, count, rfl⟩ := hu.registers
  have hn : (s.n + 1).toNat = s.n.toNat + 1 := n_succ_toNat hopen
  refine ⟨hn, ?_⟩
  by_cases hdone : (s.n + 1).toNat = area s
  · exact .inl ⟨hdone, if_pos hdone⟩
  · have hmore : (s.n + 1).toNat < area s := Nat.lt_of_le_of_ne (hn.trans_le hopen) hdone
    exact .inr ⟨hmore, (if_neg hdone).trans hb⟩

end Sys2Proof.Machine
end

section
/-! The invariant of spec/10_state.md R35: it holds after a reset, and every effect of a command, an illegal word
and a delivery at the port keep it. -/

namespace Sys2Proof.Machine

variable {s t : State}

theorem Inv.powerOn (h : Inv s) : PowerOn s where
  cfg_valid := h.cfg_valid
  idx_wf := h.idx_wf
  bpl_wf := h.bpl_wf
  idx_within := h.idx_within
  bpl_within := h.bpl_within

/-- A register reset brings the invariant about, whatever the registers held (R202). -/
theorem inv_resetRegisters (h : PowerOn s) : Inv (resetRegisters s) where
  cfg_valid := h.cfg_valid
  w_le := Nat.zero_le _
  h_le := Nat.zero_le _
  pcount_le := Nat.zero_le _
  pal_distinct := by simp [livePal]
  n_le := Nat.zero_le _
  pcount_le_n := Nat.le_refl _
  pcount_zero := Iff.intro (fun _ => rfl) (fun _ => rfl)
  idx_live := nofun
  entry_used := nofun
  build_open := nofun
  raster_full := nofun
  idle_empty _ := ⟨rfl, rfl, rfl, rfl⟩
  np_unset _ := rfl
  np_encoded := nofun
  np_fault := nofun
  fcode_fault := by simp
  finfo_zero _ := rfl
  bpl_packed := nofun
  idx_wf := h.idx_wf
  bpl_wf := h.bpl_wf
  idx_within := h.idx_within
  bpl_within := h.bpl_within

/-- The invariant says nothing of the response and of what the host has yet to deliver. -/
theorem inv_resp_port (h : Inv s) (v : Word32) (port : List PortEvent) :
    Inv { s with resp := v, port := port } :=
  { h with
    bpl_packed := fun he y hy p hp b hb => by
      obtain ⟨v, hv, hpack⟩ := h.bpl_packed he y hy p hp b hb
      exact ⟨v, hv, hpack ▸ packByte_congr rfl rfl rfl y p b⟩ }

theorem inv_respond (h : Inv s) (v : Word32) : Inv (respond v s) := inv_resp_port h v s.port

theorem inv_port (h : Inv s) (port : List PortEvent) : Inv { s with port := port } :=
  inv_resp_port h s.resp port

/-- A fault keeps the image it interrupts, and with it a plane count that is unset or of that image. -/
theorem inv_raiseFault (h : Inv s) (hl : s.phase ≠ .fault) {code : FaultCode} (hc : code ≠ .none)
    (info : Word32) : Inv (raiseFault code info s) :=
  { h with
    build_open := nofun
    raster_full := nofun
    idle_empty := nofun
    np_unset := nofun
    np_encoded := nofun
    np_fault := fun _ => by
      by_cases he : s.phase = .encoded
      · exact .inr (h.np_encoded he).1
      · exact .inl (h.np_unset (by cases hp : s.phase <;> simp_all))
    fcode_fault := by simp [hc]
    finfo_zero := fun hne => absurd rfl hne
    bpl_packed := nofun }

/-- A freshly opened image has no pixel, no palette and no planes; a zero area is complete at once (R104). -/
theorem inv_openImage (h : Inv s) (hl : s.phase ≠ .fault) {w h' : BitVec 16}
    (hfit : imageFits s.cfg w h' = true) : Inv (openImage w h' s) := by
  obtain ⟨hw, hh⟩ : w.toNat ≤ s.cfg.maxW ∧ h'.toNat ≤ s.cfg.maxH := by simpa [imageFits] using hfit
  have hphase := openImage_phase w h' s
  have hcode : s.fcode = .none := by simpa [hl] using h.fcode_fault
  exact
  { cfg_valid := h.cfg_valid
    w_le := hw
    h_le := hh
    pcount_le := Nat.zero_le _
    pal_distinct := by simp [livePal]
    n_le := Nat.zero_le _
    pcount_le_n := Nat.le_refl _
    pcount_zero := Iff.intro (fun _ => rfl) (fun _ => rfl)
    idx_live := nofun
    entry_used := nofun
    build_open := fun hb => by
      rw [hphase] at hb
      split at hb
      · cases hb
      · next hne => exact Nat.pos_of_ne_zero hne
    raster_full := fun hp => by
      rw [hphase] at hp
      split at hp
      · next hz => exact hz.symm
      · simp at hp
    idle_empty := fun hi => by rw [hphase] at hi; split at hi <;> cases hi
    np_unset := fun _ => rfl
    np_encoded := fun he => by rw [hphase] at he; split at he <;> cases he
    np_fault := fun _ => .inl rfl
    fcode_fault := by
      rw [hphase, openImage_fcode]
      split <;> simp [hcode]
    finfo_zero := fun _ => h.finfo_zero hl
    bpl_packed := fun he => by rw [hphase] at he; split at he <;> cases he
    idx_wf := h.idx_wf
    bpl_wf := h.bpl_wf
    idx_within := h.idx_within
    bpl_within := h.bpl_within }

/-- A live index in the next pixel's cell leaves every accepted pixel's cell with a live index (R35 item 2). -/
theorem Inv.idx_live_write (h : Inv s) {i : PaletteIndex} {count : Nat} (hi : i.toNat < count)
    (hgrow : s.pcount.toNat ≤ count) {k : Nat} (hk : k < s.n.toNat + 1) :
    ∃ v ∈ Memory.read (Memory.write s.idx s.n.toNat i) k, v.toNat < count := by
  rw [Memory.read_write]
  split
  · exact ⟨i, rfl, hi⟩
  · next hne =>
    obtain ⟨v, hv, hlive⟩ := h.idx_live k (by omega)
    exact ⟨v, hv, hlive.trans_le hgrow⟩

/-- An entry that was live, or that the next pixel uses, is used by an accepted pixel (R108 item 5). -/
theorem Inv.entry_used_write (h : Inv s) {i : PaletteIndex} {j : Nat}
    (hj : j < s.pcount.toNat ∨ BitVec.ofNat 4 j = i) : ∃ k, k < s.n.toNat + 1 ∧
      Memory.read (Memory.write s.idx s.n.toNat i) k = some (BitVec.ofNat 4 j) := by
  obtain hold | rfl := hj
  · obtain ⟨k, hk, hread⟩ := h.entry_used j hold
    exact ⟨k, Nat.lt_succ_of_lt hk, (Memory.read_write_other _ _ hk.ne).trans hread⟩
  · exact ⟨s.n.toNat, Nat.lt_succ_self _, Memory.read_write_same _ _ _⟩

/-- An accepted pixel: its cell gets an index that is live, and every live entry is used (R107, R108). -/
theorem inv_recordIndex {c : Color} {u : State} {i : PaletteIndex} (h : Inv s)
    (hb : s.phase = .build) (hu : PaletteStep c s u i) (hr : recordIndex i u = .ok t) : Inv t := by
  obtain ⟨hn, hphase⟩ := recordIndex_n_phase hb (h.build_open hb) hu hr
  have hfresh : t.phase ≠ .idle ∧ t.phase ≠ .encoded ∧ t.phase ≠ .fault := by
    obtain ⟨-, hp⟩ | ⟨-, hp⟩ := hphase <;> simp [hp]
  have hopen : t.phase = .build → t.n.toNat < area s := fun hp => by
    obtain ⟨-, hready⟩ | ⟨hmore, -⟩ := hphase
    · cases hready.symm.trans hp
    · exact hmore
  have hfull : t.phase = .ready ∨ t.phase = .encoded → t.n.toNat = area s := fun hp => by
    obtain ⟨hdone, -⟩ | ⟨-, hbuild⟩ := hphase
    · exact hdone
    · simp [hbuild] at hp
  have hn0 : t.n ≠ 0 := fun hz => by simp [hz] at hn
  have hle := hu.pcount_le h.pcount_le
  have hnodup := hu.livePal_nodup h.pcount_le h.pal_distinct
  have hgrow := hu.le_pcount h.pcount_le
  have hsucc := hu.pcount_le_succ h.pcount_le
  have hlive := hu.index_live h.pcount_le
  have hused (j : Nat) := hu.entry_old_or_used h.pcount_le (j := j)
  obtain ⟨hcap, rfl⟩ := recordIndex_eq_ok.mp hr
  obtain ⟨pal, count, rfl⟩ := hu.registers
  obtain ⟨hidle, hencoded, hfault⟩ := hfresh
  have hcount0 : count ≠ 0 := fun hz => by simp [hz] at hlive
  exact
  { h with
    pcount_le := hle
    pal_distinct := hnodup
    n_le := hn.trans_le (h.build_open hb)
    pcount_le_n := (hsucc.trans (Nat.succ_le_succ h.pcount_le_n)).trans hn.ge
    pcount_zero := iff_of_false hcount0 hn0
    idx_live := fun k hk => h.idx_live_write hlive hgrow (hk.trans_eq hn)
    entry_used := fun j hj => by
      obtain ⟨k, hk, hread⟩ := h.entry_used_write (hused j hj)
      exact ⟨k, hk.trans_eq hn.symm, hread⟩
    build_open := hopen
    raster_full := hfull
    idle_empty := fun hp => absurd hp hidle
    np_unset := fun _ => h.np_unset (.inr (.inl hb))
    np_encoded := fun hp => absurd hp hencoded
    np_fault := fun hp => absurd hp hfault
    fcode_fault := iff_of_false hfault (by simpa [hb] using h.fcode_fault)
    finfo_zero := fun _ => h.finfo_zero (by simp [hb])
    bpl_packed := fun hp => absurd hp hencoded
    idx_wf := Memory.wf_write _ _ h.idx_wf
    idx_within := Memory.within_write _ h.idx_within hcap }

/-- A filled buffer holds the packed byte of every position, and its plane count fits `NP` (R126, R127). -/
theorem inv_encodeImage {np : Nat} (h : Inv s) (hr : s.phase = .ready)
    (hp : planes s.cfg.policy s.pcount.toNat = .ok np) (he : encodeImage np s = .ok t) : Inv t := by
  obtain ⟨heq, hpacked, -, hwf, hwithin⟩ := encodeImage_eq_ok he
  obtain ⟨hnp1, hnp4, -⟩ := planes_bounds hp h.pcount_le
  have hnp : (BitVec.ofNat 3 np).toNat = np := by
    simp only [maxPlanes] at hnp4
    simp only [BitVec.toNat_ofNat]
    omega
  generalize t.bpl = bpl at *
  subst heq
  exact
  { h with
    build_open := nofun
    raster_full := fun _ => h.raster_full (.inl hr)
    idle_empty := nofun
    np_unset := nofun
    np_encoded := fun _ => by
      simp only [hnp]
      exact ⟨hp, hnp1⟩
    np_fault := nofun
    fcode_fault := by simpa [hr] using h.fcode_fault
    finfo_zero := fun _ => h.finfo_zero (by simp [hr])
    bpl_packed := fun _ y hy p hpl b hb => by
      simp only [hnp] at hpl ⊢
      obtain ⟨v, hv, hread⟩ := hpacked y p b hy hpl hb
      exact ⟨v, hread, hv ▸ packByte_congr rfl rfl rfl y p b⟩
    bpl_wf := hwf h.bpl_wf
    bpl_within := hwithin h.bpl_within }

/-- Every command keeps the invariant. -/
theorem inv_exec {i : Instr} (h : Inv s) (hx : exec i s = .next t) : Inv t := by
  cases effect_of_exec hx with
  | ignored => exact h
  | raised live named => exact inv_raiseFault h live named _
  | responded => exact inv_respond h _
  | cleared => exact inv_resetRegisters h.powerOn
  | opened live fits => exact inv_openImage h live fits
  | recorded building palette stored => exact inv_recordIndex h building palette stored
  | packed ready count filled => exact inv_encodeImage h ready count filled

theorem inv_rejectWord {op : BitVec 8} (h : Inv s) (hx : rejectWord op s = .next t) : Inv t := by
  obtain ⟨-, rfl⟩ | ⟨hl, rfl⟩ := rejectWord_eq_next.mp hx
  · exact h
  · exact inv_raiseFault h hl (by decide) _

/-- Settles O50, by the four kinds of step: each is one of the effects that keep the invariant, on the state
without the event it took. -/
theorem stepKeepsTheInvariant : Obligations.StepKeepsTheInvariant := by
  intro s t h hs
  obtain ⟨-, hx⟩ | ⟨rest, -, hx⟩ | ⟨word, rest, i, -, -, hx⟩ | ⟨word, rest, r, -, -, hx⟩ := step_cases s
  · cases hx.symm.trans hs
    exact h
  · cases hx.symm.trans hs
    exact inv_resetRegisters (inv_port h rest).powerOn
  · exact inv_exec (inv_port h rest) (hx.symm.trans hs)
  · exact inv_rejectWord (inv_port h rest) (hx.symm.trans hs)

/-- Settles O49: the state after reset is a register reset of itself. -/
theorem resetStateMeetsTheInvariant : Obligations.ResetStateMeetsTheInvariant :=
  inv_resetRegisters (s := State.reset) ⟨rfl, rfl, rfl, rfl, rfl⟩

end Sys2Proof.Machine
end

section
/-! A state that meets the invariant always steps: no command reads a cell without a value or touches one that does
not exist (spec/10_state.md R34, spec/92_eei_decisions.md D33). -/

namespace Sys2Proof.Machine

variable {s : State}

section Guards

variable {perform : Host.Outcome State Fault Refusal} {accepted : List Phase} {op : BitVec 8}
  {ok : Bool}

theorem unlessFaulted_isNext (h : s.phase ≠ .fault → ∃ t, perform = .next t) :
    ∃ t, unlessFaulted s perform = .next t := by
  by_cases hf : s.phase = .fault
  · exact ⟨s, unlessFaulted_fault hf⟩
  · rw [unlessFaulted_live hf]
    exact h hf

theorem inPhases_isNext (h : s.phase ∈ accepted → ∃ t, perform = .next t) :
    ∃ t, inPhases accepted op s perform = .next t :=
  unlessFaulted_isNext fun _ => by
    split
    · next hp => exact h hp
    · exact ⟨_, rfl⟩

theorem inRange_isNext (h : ok = true → ∃ t, perform = .next t) :
    ∃ t, inRange ok op s perform = .next t := by
  cases ok
  · exact ⟨_, rfl⟩
  · exact h rfl

end Guards

theorem respondWith_isNext {n : Nat} {value : Except Fault (BitVec n)} (h : ∃ v, value = .ok v) :
    ∃ t, respondWith value s = .next t := by
  obtain ⟨v, rfl⟩ := h
  exact ⟨_, rfl⟩

/-- In BUILD the cell of the next pixel exists, so the pixel is stored. -/
theorem recordIndex_isOk {c : Color} {u : State} {i : PaletteIndex} (h : Inv s)
    (hb : s.phase = .build) (hu : PaletteStep c s u i) : ∃ t, recordIndex i u = .ok t := by
  have hcap : s.n.toNat < idxCap s.cfg := (h.build_open hb).trans_le h.area_le_idxCap
  obtain ⟨pal, count, rfl⟩ := hu.registers
  exact ⟨_, recordIndex_eq_ok.mpr ⟨hcap, rfl⟩⟩

theorem acceptColor_isNext (h : Inv s) (hb : s.phase = .build) (c : Color) :
    ∃ t, acceptColor c s = .next t := by
  unfold acceptColor
  split
  · next i found =>
    obtain ⟨t, ht⟩ := recordIndex_isOk h hb (.known found)
    exact ⟨t, settle_eq_next.mpr ht⟩
  · next absent =>
    split
    · exact ⟨_, rfl⟩
    · next room =>
      obtain ⟨t, ht⟩ := recordIndex_isOk h hb (.appended absent room)
      exact ⟨t, settle_eq_next.mpr ht⟩

theorem execEncode_isNext (h : Inv s) : ∃ t, execEncode s = .next t :=
  inPhases_isNext fun hp => by
    have hready : s.phase = .ready := List.mem_singleton.mp hp
    split
    · exact ⟨_, rfl⟩
    · next np count =>
      obtain ⟨-, hnp, -⟩ := planes_bounds count h.pcount_le
      obtain ⟨t, ht⟩ := encodeImage_isOk (np := np)
        (fun _ hk => h.exists_readIdx_of_full (.inl hready) hk) h.w_le h.h_le hnp
      exact ⟨t, settle_eq_next.mpr ht⟩

/-- Every command answers a next state. -/
theorem exec_isNext (h : Inv s) (i : Instr) : ∃ t, exec i s = .next t := by
  cases i with
  | begin w h' =>
    refine unlessFaulted_isNext fun _ => ?_
    split <;> exact ⟨_, rfl⟩
  | pixel r g b a =>
    exact inPhases_isNext fun hp => acceptColor_isNext h (List.mem_singleton.mp hp) _
  | encode => exact execEncode_isNext h
  | rdpal k => exact inPhases_isNext fun _ => inRange_isNext fun _ => ⟨_, rfl⟩
  | rdidx x y =>
    refine inPhases_isNext fun hp => inRange_isNext fun hin => respondWith_isNext ?_
    obtain ⟨hx, hy⟩ : x.toNat < s.w.toNat ∧ y.toNat < s.h.toNat := by simpa [inRaster] using hin
    exact h.exists_readIdx_of_full (by simpa using hp) (idxAddr_lt_area hx hy)
  | rdbpl off =>
    refine inPhases_isNext fun hp => inRange_isNext fun hin => respondWith_isNext ?_
    exact h.exists_readBpl (List.mem_singleton.mp hp) (by simpa [inBuffer] using hin)
  | rdstat => exact ⟨_, rfl⟩
  | rdfinfo => exact ⟨_, rfl⟩
  | srst => exact ⟨_, rfl⟩

/-- Settles O51, by the four kinds of step: only a command accesses a RAM, and every command answers. -/
theorem invariantStatesAlwaysStep : Obligations.InvariantStatesAlwaysStep := by
  intro s h
  obtain ⟨-, hx⟩ | ⟨rest, -, hx⟩ | ⟨word, rest, i, -, -, hx⟩ | ⟨word, rest, r, -, -, hx⟩ := step_cases s
  · exact ⟨s, hx⟩
  · exact ⟨_, hx⟩
  · rw [hx]
    exact exec_isNext (inv_port h rest) i
  · rw [hx]
    exact unlessFaulted_isNext fun _ => ⟨_, rfl⟩

end Sys2Proof.Machine
end

section
/-! What the commands do to the state, register by register: the values of `PHASE` and `FCODE`, the changes of the
phase (spec/10_state.md R30), the writers of each register and RAM (R22, R50) and the growth of the palette
(R24). -/

namespace Sys2Proof.Machine

variable {s t : State}

/-- The phase after a command is the one the table of R30 gives for the command's word. -/
theorem phaseChangeAllowed_of_exec {word : CommandWord} {i : Instr} (h : Inv s)
    (hd : decodeWord word = .ok i) (hx : exec i s = .next t) :
    phaseChangeAllowed (some (.command word)) s t := by
  simp only [phaseChangeAllowed, hd]
  cases effect_of_exec hx with
  | ignored faulted kind => cases i <;> simp [ignoredInFault, faulted] at kind ⊢
  | raised live _ kind => cases i <;> simp [ignoredInFault, live] at kind ⊢
  | responded kind => cases i <;> simp [isRead] at kind ⊢
  | cleared => rfl
  | opened live fits =>
    simp only [live, if_false, openImage_phase]
    right
    split
    · next hz => exact .inl ⟨hz, rfl⟩
    · next hz => exact .inr ⟨Nat.pos_of_ne_zero hz, rfl⟩
  | recorded building palette stored =>
    obtain ⟨-, hphase⟩ := recordIndex_n_phase building (h.build_open building) palette stored
    simp only [building, if_true]
    exact .inr hphase
  | packed ready count filled =>
    obtain ⟨heq, -⟩ := encodeImage_eq_ok filled
    simp only [ready, if_true]
    exact .inr (by rw [heq])

/-- Settles O45, by the four kinds of step. -/
theorem phaseChangesFollowTheTable : Obligations.PhaseChangesFollowTheTable := by
  intro s t h hs
  obtain ⟨hport, hx⟩ | ⟨rest, hport, hx⟩ | ⟨word, rest, i, hport, hd, hx⟩ |
    ⟨word, rest, r, hport, hd, hx⟩ := step_cases s
  all_goals
    rw [hx] at hs
    simp only [hport, List.head?_nil, List.head?_cons]
  · cases hs
    rfl
  · cases hs
    rfl
  · have hallowed := phaseChangeAllowed_of_exec (inv_port h rest) hd hs
    exact hallowed
  · simp only [phaseChangeAllowed, hd]
    obtain ⟨hf, rfl⟩ | ⟨-, rfl⟩ := rejectWord_eq_next.mp hs
    · exact hf
    · rfl

/-- Settles O46, by the kind of the command's effect. -/
theorem stateIsWrittenOnlyByItsCommands : Obligations.StateIsWrittenOnlyByItsCommands := by
  intro s t i hx
  cases effect_of_exec hx with
  | ignored => simp
  | raised => simp
  | responded kind =>
    have hread : i.mnemonic ∈ ["RDPAL", "RDIDX", "RDBPL", "RDSTAT", "RDFINFO", "SRST"] := by
      cases i <;> simp [isRead, Instr.mnemonic] at kind ⊢
    simpa using fun _ => hread
  | cleared => simp [Instr.mnemonic]
  | opened => simp [Instr.mnemonic]
  | recorded _ palette stored =>
    obtain ⟨-, rfl⟩ := recordIndex_eq_ok.mp stored
    obtain ⟨pal, count, rfl⟩ := palette.registers
    simp [Instr.mnemonic]
  | packed _ _ filled =>
    obtain ⟨heq, -⟩ := encodeImage_eq_ok filled
    rw [heq]
    simp [Instr.mnemonic]

/-- Settles O19: an accepted pixel keeps the live palette or extends it at its end, and no other effect but those
of BEGIN and SRST writes the palette or its length. -/
theorem livePaletteOnlyGrowsAtItsEnd : Obligations.LivePaletteOnlyGrowsAtItsEnd := by
  intro s t i h hx hbegin hsrst
  cases effect_of_exec hx with
  | ignored => exact livePal_grows_of_eq rfl rfl
  | raised => exact livePal_grows_of_eq rfl rfl
  | responded => exact livePal_grows_of_eq rfl rfl
  | cleared => exact absurd rfl hsrst
  | opened => exact absurd rfl (hbegin _ _)
  | recorded _ palette stored =>
    obtain ⟨-, rfl⟩ := recordIndex_eq_ok.mp stored
    have hgrows := palette.livePal_grows h.pcount_le
    exact hgrows
  | packed _ _ filled =>
    obtain ⟨heq, -⟩ := encodeImage_eq_ok filled
    exact livePal_grows_of_eq (by rw [heq]) (by rw [heq])

/-- Settles O36: the values, in the order of the tables of R29 and R181. -/
theorem phaseAndFaultCodeValues : Obligations.PhaseAndFaultCodeValues := ⟨rfl, rfl⟩

end Sys2Proof.Machine
end

section
/-! What no rule calls live is never observable (spec/10_state.md R34): two states that agree on their live parts
agree on the answer of every function a command calls, so the answers to a command agree on theirs. -/

namespace Sys2Proof.Machine

variable {s s' t t' : State}

/-! ### What the functions of a command see of the state -/

section Views

variable (ha : LiveAgree s s')
include ha

theorem LiveAgree.lookup_eq (c : Color) : lookup s' c = lookup s c := by
  simp only [lookup, ha.pal]

theorem LiveAgree.bplSize_eq : bplSize s' = bplSize s := by simp only [bplSize, ha.w, ha.h, ha.np]

theorem LiveAgree.statusWord_eq : statusWord s' = statusWord s := by
  simp only [statusWord, ha.np, ha.pcount, ha.fcode, ha.phase]

/-- Of the palette RDPAL sees a live entry only (R140). -/
theorem LiveAgree.paletteResponse_eq {i : PaletteIndex} (hi : isLiveIndex s i = true) :
    paletteResponse s' i = paletteResponse s i := by
  have hlt : i.toNat < s.pcount.toNat := by simpa [isLiveIndex] using hi
  have hentry : palEntry s' i = palEntry s i := by
    apply Option.some.inj
    rw [← livePal_getElem? hlt, ← livePal_getElem? (ha.pcount ▸ hlt), ha.pal]
  simp only [paletteResponse, hentry]

theorem LiveAgree.readIdx_eq {k : Nat} (hk : k < s.n.toNat) : readIdx s' k = readIdx s k := by
  simp only [readIdx, ha.cfg, ha.idx k hk]

theorem LiveAgree.readBpl_eq (he : s.phase = .encoded) {o : Nat} (ho : o < bplSize s) :
    readBpl s' o = readBpl s o := by
  simp only [readBpl, ha.cfg, ha.bpl he o ho]

/-- PACKBYTE reads the cells of its own row only (R123). -/
theorem LiveAgree.packByte_eq (hfull : s.n.toNat = area s) {y : Nat} (hy : y < s.h.toNat)
    (p b : Nat) : packByte s' y p b = packByte s y p b := by
  have hbit (j : Nat) : packBit s' y p b j = packBit s y p b j := by
    simp only [packBit, ha.w, idxAddr]
    split
    · next hx => rw [ha.readIdx_eq (hfull ▸ idxAddr_lt_area hx hy)]
    · rfl
  have hbits (k : Nat) : packBits s' y p b k = packBits s y p b k := by
    induction k with
    | zero => rfl
    | succ k ih => simp only [packBits, ih, hbit]
  exact hbits 8

end Views

/-! ### The effects -/

theorem LiveAgree.raiseFault (ha : LiveAgree s s') (code : FaultCode) (info : Word32) :
    LiveAgree (raiseFault code info s) (raiseFault code info s') :=
  { ha with phase := rfl, fcode := rfl, finfo := rfl, bpl := nofun }

theorem LiveAgree.respond (ha : LiveAgree s s') (v : Word32) :
    LiveAgree (respond v s) (respond v s') :=
  { ha with resp := rfl }

theorem LiveAgree.resetRegisters (ha : LiveAgree s s') :
    LiveAgree (resetRegisters s) (resetRegisters s') where
  phase := rfl
  fcode := rfl
  finfo := rfl
  w := rfl
  h := rfl
  n := rfl
  pcount := rfl
  np := rfl
  resp := rfl
  cfg := ha.cfg
  pal := rfl
  idx := nofun
  bpl := nofun

theorem LiveAgree.openImage (ha : LiveAgree s s') (w h : BitVec 16) :
    LiveAgree (openImage w h s) (openImage w h s') :=
  { ha with
    phase := rfl
    w := rfl
    h := rfl
    n := rfl
    pcount := rfl
    np := rfl
    pal := by simp [livePal]
    idx := nofun
    bpl := fun he => by
      rw [openImage_phase] at he
      split at he <;> cases he }

theorem LiveAgree.appendColor (ha : LiveAgree s s') (h : s.pcount.toNat < palCap) (c : Color)
    (hb : s.phase = .build) : LiveAgree (appendColor c s) (appendColor c s') :=
  { ha with
    pcount := by simp only [appendColor_pcount, ha.pcount]
    pal := by
      rw [livePal_appendColor h, livePal_appendColor (ha.pcount ▸ h), ha.pal]
    bpl := fun he => by cases hb.symm.trans he }

/-- Storing a pixel's index writes the one cell that becomes live. -/
theorem LiveAgree.recordIndex (ha : LiveAgree s s') (hb : s.phase = .build)
    (hopen : s.n.toNat < area s) {i : PaletteIndex} (hr : recordIndex i s = .ok t)
    (hr' : recordIndex i s' = .ok t') : LiveAgree t t' := by
  obtain ⟨-, rfl⟩ := recordIndex_eq_ok.mp hr
  obtain ⟨-, rfl⟩ := recordIndex_eq_ok.mp hr'
  have hn : (s.n + 1).toNat = s.n.toNat + 1 := n_succ_toNat hopen
  exact
  { ha with
    phase := if_congr (by simp only [area, ha.n, ha.w, ha.h]) rfl ha.phase
    n := by simp only [advanceCursor_n, ha.n]
    idx := fun k hk => by
      simp only [advanceCursor_idx, ha.n, Memory.read_write]
      split
      · rfl
      · next hne =>
        have hk' : k < s.n.toNat + 1 := hn ▸ hk
        exact ha.idx k (by omega)
    bpl := fun he => by
      rw [advanceCursor_phase] at he
      split at he
      · cases he
      · cases hb.symm.trans he }

/-- Two fills from rasters that agree store the same byte at every position (R127). -/
theorem LiveAgree.encodeImage (ha : LiveAgree s s') (hfull : s.n.toNat = area s) {np : Nat}
    (hnp : np < 8) (he : encodeImage np s = .ok t) (he' : encodeImage np s' = .ok t') :
    LiveAgree t t' := by
  obtain ⟨heq, hpacked, -⟩ := encodeImage_eq_ok he
  obtain ⟨heq', hpacked', -⟩ := encodeImage_eq_ok he'
  simp only [ha.w, ha.h] at hpacked'
  have hto : (BitVec.ofNat 3 np).toNat = np := by simpa using hnp
  generalize t.bpl = bpl at *
  generalize t'.bpl = bpl' at *
  subst heq heq'
  exact
  { ha with
    phase := rfl
    np := rfl
    bpl := fun _ o ho => by
      simp only [bplSize, hto] at ho
      obtain ⟨hy, hp, hb, ho⟩ := bplOffset_of_offset ho
      obtain ⟨v, hv, hread⟩ := hpacked _ _ _ hy hp hb
      obtain ⟨v', hv', hread'⟩ := hpacked' _ _ _ hy hp hb
      have hbyte : v' = v := by simpa [ha.packByte_eq hfull hy, hv, eq_comm] using hv'
      rw [ho] at hread hread'
      rw [hread, hread', hbyte] }

/-! ### The answers -/

/-- If both outcomes are next states, these agree on their live parts. -/
def AnswersAgree (o o' : Host.Outcome State Fault Refusal) : Prop :=
  ∀ t t', o = .next t → o' = .next t' → LiveAgree t t'

theorem answersAgree_next (ha : LiveAgree s s') : AnswersAgree (.next s) (.next s') := by
  rintro _ _ ⟨⟩ ⟨⟩
  exact ha

theorem answersAgree_settle {e e' : Except Fault State}
    (h : ∀ t t', e = .ok t → e' = .ok t' → LiveAgree t t') : AnswersAgree (settle e) (settle e') :=
  fun t t' ht ht' => h t t' (settle_eq_next.mp ht) (settle_eq_next.mp ht')

section Guards

variable {perform perform' : Host.Outcome State Fault Refusal} {accepted : List Phase}
  {op : BitVec 8} {ok ok' : Bool} (ha : LiveAgree s s')
include ha

theorem answersAgree_unlessFaulted (h : AnswersAgree perform perform') :
    AnswersAgree (unlessFaulted s perform) (unlessFaulted s' perform') := by
  by_cases hf : s.phase = .fault
  · rw [unlessFaulted_fault hf, unlessFaulted_fault (ha.phase.trans hf)]
    exact answersAgree_next ha
  · rw [unlessFaulted_live hf, unlessFaulted_live (ha.phase ▸ hf)]
    exact h

theorem answersAgree_inPhases (h : s.phase ∈ accepted → AnswersAgree perform perform') :
    AnswersAgree (inPhases accepted op s perform) (inPhases accepted op s' perform') := by
  refine answersAgree_unlessFaulted ha ?_
  rw [ha.phase]
  split
  · next hp => exact h hp
  · exact answersAgree_next (ha.raiseFault _ _)

theorem answersAgree_inRange (hok : ok' = ok) (h : ok = true → AnswersAgree perform perform') :
    AnswersAgree (inRange ok op s perform) (inRange ok' op s' perform') := by
  subst hok
  cases ok'
  · exact answersAgree_next (ha.raiseFault _ _)
  · exact h rfl

theorem answersAgree_respondWith {n : Nat} {value value' : Except Fault (BitVec n)}
    (hv : value' = value) : AnswersAgree (respondWith value s) (respondWith value' s') := by
  intro t t' ht ht'
  obtain ⟨v, hok, rfl⟩ := respondWith_eq_next.mp ht
  obtain ⟨v', hok', rfl⟩ := respondWith_eq_next.mp ht'
  obtain rfl : v' = v := Except.ok.inj (hok'.symm.trans (hv.trans hok))
  exact ha.respond _

end Guards

theorem answersAgree_acceptColor (h : Inv s) (ha : LiveAgree s s') (hb : s.phase = .build)
    (c : Color) : AnswersAgree (acceptColor c s) (acceptColor c s') := by
  have hopen := h.build_open hb
  simp only [acceptColor, ha.lookup_eq, ha.pcount, ha.n]
  split
  · exact answersAgree_settle fun t t' hr hr' => ha.recordIndex hb hopen hr hr'
  · split
    · exact answersAgree_next (ha.raiseFault _ _)
    · next room =>
      have happend := ha.appendColor (pcount_lt_palCap h.pcount_le room) c hb
      exact answersAgree_settle fun t t' hr hr' => happend.recordIndex hb hopen hr hr'

theorem answersAgree_execEncode (h : Inv s) (ha : LiveAgree s s') :
    AnswersAgree (execEncode s) (execEncode s') :=
  answersAgree_inPhases ha fun hp => by
    have hfull := h.raster_full (.inl (List.mem_singleton.mp hp))
    rw [ha.cfg, ha.pcount]
    split
    · exact answersAgree_next (ha.raiseFault _ _)
    · next np count =>
      have hnp := planes_lt_eight count s.pcount.isLt
      exact answersAgree_settle fun t t' he he' => ha.encodeImage hfull hnp he he'

theorem answersAgree_exec (h : Inv s) (ha : LiveAgree s s') (i : Instr) :
    AnswersAgree (exec i s) (exec i s') := by
  cases i with
  | begin w h' =>
    refine answersAgree_unlessFaulted ha ?_
    rw [ha.cfg]
    split
    · exact answersAgree_next (ha.openImage w h')
    · exact answersAgree_next (ha.raiseFault _ _)
  | pixel r g b a =>
    exact answersAgree_inPhases ha fun hp =>
      answersAgree_acceptColor h ha (List.mem_singleton.mp hp) _
  | encode => exact answersAgree_execEncode h ha
  | rdpal k =>
    refine answersAgree_inPhases ha fun _ => answersAgree_inRange ha ?_ fun hin => ?_
    · simp only [isLiveIndex, ha.pcount]
    · rw [ha.paletteResponse_eq hin]
      exact answersAgree_next (ha.respond _)
  | rdidx x y =>
    refine answersAgree_inPhases ha fun hp => answersAgree_inRange ha ?_ fun hin => ?_
    · simp only [inRaster, ha.w, ha.h]
    · obtain ⟨hx, hy⟩ : x.toNat < s.w.toNat ∧ y.toNat < s.h.toNat := by simpa [inRaster] using hin
      have hcell : idxAddr s x.toNat y.toNat < s.n.toNat :=
        (idxAddr_lt_area hx hy).trans_eq (h.raster_full (by simpa using hp)).symm
      have haddr : idxAddr s' x.toNat y.toNat = idxAddr s x.toNat y.toNat := by
        simp only [idxAddr, ha.w]
      exact answersAgree_respondWith ha (by rw [haddr, ha.readIdx_eq hcell])
  | rdbpl off =>
    refine answersAgree_inPhases ha fun hp => answersAgree_inRange ha ?_ fun hin => ?_
    · simp only [inBuffer, ha.bplSize_eq]
    · have hbyte : off.toNat < bplSize s := by simpa [inBuffer] using hin
      exact answersAgree_respondWith ha (ha.readBpl_eq (List.mem_singleton.mp hp) hbyte)
  | rdstat => exact answersAgree_next (ha.statusWord_eq ▸ ha.respond _)
  | rdfinfo => exact answersAgree_next (ha.finfo ▸ ha.respond _)
  | srst => exact answersAgree_next ha.resetRegisters

/-- Settles O52: the second state answers because it meets the invariant, and the two answers agree. -/
theorem deadContentsAreUnobservable : Obligations.DeadContentsAreUnobservable := by
  intro s s' t i h h' ha hx
  obtain ⟨t', hx'⟩ := exec_isNext h' i
  exact ⟨t', hx', answersAgree_exec h ha i t t' hx hx'⟩

end Sys2Proof.Machine
end

section
/-! Two memories in the canonical form that read alike are the same list (spec/10_state.md R34,
spec/20_memory.md R50). -/

namespace Sys2Proof.Machine.Memory

variable {w lo lo' k : Nat} {v : BitVec w} {m m' rest : Memory w}

theorem wfFrom_cons : wfFrom lo ((k, v) :: rest) = true ↔ lo ≤ k ∧ wfFrom (k + 1) rest = true := by
  simp only [wfFrom, Bool.and_eq_true, decide_eq_true_eq]

theorem read_cons_same : read ((k, v) :: rest) k = some v := if_pos rfl

theorem read_cons_other {a : Nat} (h : k ≠ a) : read ((k, v) :: rest) a = read rest a := if_neg h

/-- A canonical memory that holds a value at an address lists no first address above it. -/
theorem head_le_of_read_eq_some {a : Nat} {u : BitVec w} (h : wfFrom lo ((k, v) :: rest) = true)
    (hread : read ((k, v) :: rest) a = some u) : k ≤ a := by
  by_contra hlt
  have hhead : wfFrom k ((k, v) :: rest) = true := wfFrom_cons.mpr ⟨le_rfl, (wfFrom_cons.mp h).2⟩
  simp [read_eq_none_of_lt hhead (Nat.lt_of_not_le hlt)] at hread

/-- The first addresses of two canonical memories that read alike are equal, hence so are the first values, and
below the heads the tails read alike. -/
theorem eq_of_read_eq (h : wfFrom lo m = true) (h' : wfFrom lo' m' = true)
    (hread : ∀ a, read m a = read m' a) : m = m' := by
  induction m generalizing m' lo lo' with
  | nil =>
    cases m' with
    | nil => rfl
    | cons e' rest' =>
      obtain ⟨k', v'⟩ := e'
      simpa [read_cons_same] using hread k'
  | cons e rest ih =>
    obtain ⟨k, v⟩ := e
    cases m' with
    | nil => simpa [read_cons_same] using hread k
    | cons e' rest' =>
      obtain ⟨k', v'⟩ := e'
      have hle : k ≤ k' := head_le_of_read_eq_some h ((hread k').trans read_cons_same)
      have hle' : k' ≤ k := head_le_of_read_eq_some h' ((hread k).symm.trans read_cons_same)
      obtain rfl : k = k' := Nat.le_antisymm hle hle'
      have hvalue : v = v' := by simpa [read_cons_same] using hread k
      have htail := (wfFrom_cons.mp h).2
      have htail' := (wfFrom_cons.mp h').2
      have hrest : ∀ a, read rest a = read rest' a := fun a => by
        by_cases hka : k = a
        · subst hka
          rw [read_eq_none_of_lt htail k.lt_succ_self, read_eq_none_of_lt htail' k.lt_succ_self]
        · simpa only [read_cons_other hka] using hread a
      rw [hvalue, ih htail htail' hrest]

/-- Settles O53, by induction on the list, with any lower bounds for its addresses. -/
theorem memoriesThatReadAlikeAreEqual : Obligations.MemoriesThatReadAlikeAreEqual :=
  fun _ _ _ => eq_of_read_eq

end Sys2Proof.Machine.Memory
end

section
/-! What a step takes from the port, what the commands that store nothing leave unchanged, and what a read does when
it is repeated (spec/20_memory.md R50, R57, R60). -/

namespace Sys2Proof.Machine

variable {s t : State} {i : Instr} {v : Word32}

/-! ### The port and the parameters -/

theorem exec_port_cfg (hx : exec i s = .next t) : t.port = s.port ∧ t.cfg = s.cfg := by
  obtain ⟨-, -, -, -, -, -, -, -, -, hcfg, hport⟩ := stateIsWrittenOnlyByItsCommands s t i hx
  exact ⟨hport, hcfg⟩

theorem rejectWord_port_cfg {op : BitVec 8} (hx : rejectWord op s = .next t) :
    t.port = s.port ∧ t.cfg = s.cfg := by
  obtain ⟨-, rfl⟩ | ⟨-, rfl⟩ := rejectWord_eq_next.mp hx <;> exact ⟨rfl, rfl⟩

/-- Settles O8, by the four kinds of step: each works on the state without the event it took, and keeps the port and
the parameters of that state. -/
theorem stepConsumesTheOldestEvent : Obligations.StepConsumesTheOldestEvent := by
  intro s t hs
  obtain ⟨hport, hx⟩ | ⟨rest, hport, hx⟩ | ⟨word, rest, i, hport, -, hx⟩ |
    ⟨word, rest, r, hport, -, hx⟩ := step_cases s
  all_goals
    rw [hx] at hs
    rw [hport, List.tail]
  · cases hs
    exact ⟨hport, rfl⟩
  · cases hs
    exact ⟨rfl, rfl⟩
  · exact exec_port_cfg hs
  · exact rejectWord_port_cfg hs

/-! ### The commands that store nothing -/

/-- Settles O48, by the kind of the command's effect: only those of PIXEL and ENCODE write a RAM, only those of PIXEL
and SRST a palette entry, and BEGIN is ignored, raises a fault or opens an image. -/
theorem registerOnlyCommandsFrame : Obligations.RegisterOnlyCommandsFrame := by
  intro s t i hx hencode hpixel
  cases effect_of_exec hx with
  | ignored => simp
  | raised => simp
  | responded kind =>
    have hbegin : ¬ ∃ w h, i = .begin w h := by
      rintro ⟨w, h, rfl⟩
      simp [isRead] at kind
    simp [hbegin]
  | cleared => simp
  | opened => simp
  | recorded => exact absurd rfl (hpixel _ _ _ _)
  | packed => exact absurd rfl hencode

/-! ### A read repeated -/

/-- In FAULT every command that the filter covers is ignored (R173). -/
theorem exec_ignored (hf : s.phase = .fault) (kind : ignoredInFault i = true) :
    exec i s = .next s := by
  cases i with
  | begin => exact unlessFaulted_fault hf
  | pixel => exact inPhases_fault hf
  | encode => exact inPhases_fault hf
  | rdpal => exact inPhases_fault hf
  | rdidx => exact inPhases_fault hf
  | rdbpl => exact inPhases_fault hf
  | rdstat => cases kind
  | rdfinfo => cases kind
  | srst => cases kind

theorem respond_ne_raiseFault {code : FaultCode} {info : Word32} (hl : s.phase ≠ .fault) :
    respond v s ≠ raiseFault code info s := fun heq => hl (congrArg State.phase heq)

section Guards

variable {perform perform' : Host.Outcome State Fault Refusal} {accepted : List Phase}
  {op : BitVec 8} {ok : Bool}

/-- A read that the phase check let answer is let answer again. -/
theorem inPhases_again (h : inPhases accepted op s perform = .next (respond v s))
    (again : s.phase ≠ .fault → perform = .next (respond v s) → perform' = .next (respond v s)) :
    inPhases accepted op (respond v s) perform' = .next (respond v s) := by
  obtain ⟨hf, -⟩ | ⟨hl, -, heq⟩ | ⟨hl, hp, hperform⟩ := inPhases_eq_next.mp h
  · exact inPhases_fault hf
  · exact absurd heq (respond_ne_raiseFault hl)
  · exact (inPhases_accepted (s := respond v s) hl hp).trans (again hl hperform)

/-- A read that the operand check let answer is let answer again. -/
theorem inRange_again (hl : s.phase ≠ .fault)
    (h : inRange ok op s perform = .next (respond v s))
    (again : perform = .next (respond v s) → perform' = .next (respond v s)) :
    inRange ok op (respond v s) perform' = .next (respond v s) := by
  obtain ⟨-, heq⟩ | ⟨rfl, hperform⟩ := inRange_eq_next.mp h
  · exact absurd heq (respond_ne_raiseFault hl)
  · exact again hperform

end Guards

theorem respondWith_again {n : Nat} {value : Except Fault (BitVec n)}
    (h : respondWith value s = .next (respond v s)) :
    respondWith value (respond v s) = .next (respond v s) := by
  obtain ⟨u, hvalue, heq⟩ := respondWith_eq_next.mp h
  exact respondWith_eq_next.mpr ⟨u, hvalue, heq⟩

/-- No read looks at the response, so one that answered gives the same answer again (R57). -/
theorem exec_respond_again (kind : isRead i = true) (hx : exec i s = .next (respond v s)) :
    exec i (respond v s) = .next (respond v s) := by
  cases i with
  | rdpal k => exact inPhases_again hx fun hl h => inRange_again hl h id
  | rdidx x y => exact inPhases_again hx fun hl h => inRange_again hl h respondWith_again
  | rdbpl off => exact inPhases_again hx fun hl h => inRange_again hl h respondWith_again
  | rdstat => exact hx
  | rdfinfo => exact hx
  | begin => cases kind
  | pixel => cases kind
  | encode => cases kind
  | srst => cases kind

/-- Settles O38, by the kind of the read's effect: what is ignored is ignored again, what raised a fault is ignored
from then on, and what answered answers the same again. -/
theorem readsChangeOnlyTheResponseAndAreIdempotent :
    Obligations.ReadsChangeOnlyTheResponseAndAreIdempotent := by
  intro s t i hx hread
  have kind : isRead i = true := by
    obtain rfl | rfl | ⟨k, rfl⟩ | ⟨x, y, rfl⟩ | ⟨off, rfl⟩ := hread <;> rfl
  cases effect_of_exec hx with
  | ignored => exact ⟨.inl rfl, hx⟩
  | raised _ _ covered => exact ⟨.inr rfl, exec_ignored rfl covered⟩
  | responded => exact ⟨.inl rfl, exec_respond_again kind hx⟩
  | cleared => cases kind
  | opened => cases kind
  | recorded => cases kind
  | packed => cases kind

end Sys2Proof.Machine
end

section
/-! The decoder and the encoder are inverse to each other, and why the decoder rejects a word
(spec/30_encoding.md R71-R79, R86, R87). -/

namespace Sys2Proof

variable {word : CommandWord} {i j : Instr}

/-! ### The fields of an operand area put together again (R73-R78) -/

/-- Two 16-bit fields, as in the formats WH and XY (R73, R77). -/
theorem extract_halves_append (area : Word32) :
    area.extractLsb' 16 16 ++ area.extractLsb' 0 16 = area :=
  (BitVec.extractLsb'_append_extractLsb'_eq_extractLsb' rfl).trans BitVec.extractLsb'_eq_self

/-- Four 8-bit fields, as in the format RGBA (R74). -/
theorem extract_bytes_append (area : Word32) :
    area.extractLsb' 24 8 ++ area.extractLsb' 16 8 ++ area.extractLsb' 8 8 ++ area.extractLsb' 0 8 =
      area := by
  rw [BitVec.extractLsb'_append_extractLsb'_eq_extractLsb' (show 24 = 16 + 8 from rfl),
    BitVec.extractLsb'_append_extractLsb'_eq_extractLsb' (show 16 = 8 + 8 from rfl),
    BitVec.extractLsb'_append_extractLsb'_eq_extractLsb' (show 8 = 0 + 8 from rfl)]
  exact BitVec.extractLsb'_eq_self

/-- A 4-bit field under 28 clear bits, as in the format I4 (R76). -/
theorem zero_append_extract_nibble {area : Word32} (hclear : area.extractLsb' 4 28 = 0) :
    (0 : BitVec 28) ++ area.extractLsb' 0 4 = area := by
  rw [← hclear]
  exact (BitVec.extractLsb'_append_extractLsb'_eq_extractLsb' rfl).trans BitVec.extractLsb'_eq_self

/-! ### The decoder and the encoder -/

/-- A word that bears the opcode and the operand area of a command, and no reserved bit, is its encoding (R71). -/
theorem eq_encode_of_fields (hop : opField word = opcodeOf i) (hrsv : rsvField word = 0)
    (harea : operandArea word = operandsOf i) : word = encode i := by
  rw [encode, ← hop, ← hrsv, ← harea, opField_append_rsvField_append_operandArea]

/-- The same of a command without operand fields, by the check the decoder makes (R75). -/
theorem eq_encode_of_clear (hop : opField word = opcodeOf i)
    (hclear : (rsvField word == 0 && operandArea word == operandsOf i) = true) : word = encode i := by
  obtain ⟨hrsv, harea⟩ := Bool.and_eq_true_iff.mp hclear
  exact eq_encode_of_fields hop (eq_of_beq hrsv) (eq_of_beq harea)

section Ite

variable {p : Prop} [Decidable p] {clear : Bool} {rest : Except RejectReason Instr}

/-- One arm of the decoder accepts, or a later one does. -/
theorem ite_acceptIf_eq_ok (h : (if p then acceptIf clear i else rest) = .ok j) :
    (p ∧ clear = true ∧ j = i) ∨ rest = .ok j := by
  split at h
  · next hp => exact .inl ⟨hp, acceptIf_eq_ok.mp h⟩
  · exact .inr h

/-- An arm whose opcode stands in the word never calls the opcode unassigned. -/
theorem ite_acceptIf_eq_unassigned : (if p then acceptIf clear i else rest) = .error .unassignedOpcode ↔
    ¬p ∧ rest = .error .unassignedOpcode := by
  by_cases hp : p
  · cases clear <;> simp [hp, acceptIf]
  · simp [hp]

end Ite

theorem decodeWord_encode (i : Instr) : decodeWord (encode i) = .ok i := by
  simp only [decodeWord, opField_encode, rsvField_encode, operandArea_encode]
  cases i with
  | begin w h =>
    simp [opcodeOf, operandsOf, acceptIf, extractLsb'_append_high w h, extractLsb'_append_low w h]
  | pixel r g b a =>
    have hr : (r ++ g ++ b ++ a).extractLsb' 24 8 = r :=
      (extractLsb'_append_above (r ++ g ++ b) a 16 8).trans
        ((extractLsb'_append_above (r ++ g) b 8 8).trans (extractLsb'_append_high r g))
    have hg : (r ++ g ++ b ++ a).extractLsb' 16 8 = g :=
      (extractLsb'_append_above (r ++ g ++ b) a 8 8).trans
        ((extractLsb'_append_above (r ++ g) b 0 8).trans (extractLsb'_append_low r g))
    have hb : (r ++ g ++ b ++ a).extractLsb' 8 8 = b :=
      (extractLsb'_append_above (r ++ g ++ b) a 0 8).trans (extractLsb'_append_low (r ++ g) b)
    simp [opcodeOf, operandsOf, acceptIf, hr, hg, hb, extractLsb'_append_low (r ++ g ++ b) a]
  | encode => rfl
  | rdpal i =>
    simp [opcodeOf, operandsOf, acceptIf, extractLsb'_append_high 0#28 i, extractLsb'_append_low 0#28 i]
  | rdidx x y =>
    simp [opcodeOf, operandsOf, acceptIf, extractLsb'_append_high x y, extractLsb'_append_low x y]
  | rdbpl off => rfl
  | rdstat => rfl
  | rdfinfo => rfl
  | srst => rfl

theorem eq_encode_of_decodeWord (h : decodeWord word = .ok i) : word = encode i := by
  -- one arm after the other, in the order of the opcodes; a later arm is reached when all before it do not accept
  obtain ⟨hop, hclear, rfl⟩ | h := ite_acceptIf_eq_ok h
  · exact eq_encode_of_fields hop (eq_of_beq hclear) (extract_halves_append _).symm
  obtain ⟨hop, hclear, rfl⟩ | h := ite_acceptIf_eq_ok h
  · exact eq_encode_of_fields hop (eq_of_beq hclear) (extract_bytes_append _).symm
  obtain ⟨hop, hclear, rfl⟩ | h := ite_acceptIf_eq_ok h
  · exact eq_encode_of_clear hop hclear
  obtain ⟨hop, hclear, rfl⟩ | h := ite_acceptIf_eq_ok h
  · obtain ⟨hrsv, harea⟩ := Bool.and_eq_true_iff.mp hclear
    exact eq_encode_of_fields hop (eq_of_beq hrsv) (zero_append_extract_nibble (eq_of_beq harea)).symm
  obtain ⟨hop, hclear, rfl⟩ | h := ite_acceptIf_eq_ok h
  · exact eq_encode_of_fields hop (eq_of_beq hclear) (extract_halves_append _).symm
  obtain ⟨hop, hclear, rfl⟩ | h := ite_acceptIf_eq_ok h
  · exact eq_encode_of_fields hop (eq_of_beq hclear) rfl
  obtain ⟨hop, hclear, rfl⟩ | h := ite_acceptIf_eq_ok h
  · exact eq_encode_of_clear hop hclear
  obtain ⟨hop, hclear, rfl⟩ | h := ite_acceptIf_eq_ok h
  · exact eq_encode_of_clear hop hclear
  obtain ⟨hop, hclear, rfl⟩ | h := ite_acceptIf_eq_ok h
  · exact eq_encode_of_clear hop hclear
  · cases h

/-- What the decoder accepts (R79). -/
theorem decodeWord_eq_ok : decodeWord word = .ok i ↔ word = encode i :=
  ⟨eq_encode_of_decodeWord, fun h => h ▸ decodeWord_encode i⟩

/-- Settles O2: an accepted word is put together again from the fields the decoder read, and an encoded command is
taken apart into its own. -/
theorem commandHasExactlyOneEncoding : Obligations.CommandHasExactlyOneEncoding :=
  fun _ _ => decodeWord_eq_ok

/-- Settles O4: each listed word is the encoding of its command. -/
theorem listedWordsDecodeToTheirCommands : Obligations.ListedWordsDecodeToTheirCommands := by
  simp only [Obligations.ListedWordsDecodeToTheirCommands, decodeWord_eq_ok]
  decide

/-! ### The table of R79 -/

variable {row row' : OpcodeRow}

/-- A word has the row's pattern wherever the row's mask is all ones. -/
theorem extract_eq_of_matchesWord (h : row.matchesWord word = true) {start len : Nat}
    (hmask : row.mask.extractLsb' start len = BitVec.allOnes len) :
    word.extractLsb' start len = row.pattern.extractLsb' start len := by
  rw [← eq_of_beq h, BitVec.extractLsb'_and, hmask, BitVec.and_allOnes]

/-- Every row fixes the opcode. -/
theorem opField_eq_of_matchesWord (hrow : row ∈ opcodeRows) (h : row.matchesWord word = true) :
    opField word = opField row.pattern :=
  have hmask : ∀ row ∈ opcodeRows, row.mask.extractLsb' 56 8 = BitVec.allOnes 8 := by decide
  extract_eq_of_matchesWord h (hmask row hrow)

/-- Every row fixes the reserved field at 0. -/
theorem rsvField_eq_zero_of_matchesWord (hrow : row ∈ opcodeRows) (h : row.matchesWord word = true) :
    rsvField word = 0 := by
  have hrows : ∀ row ∈ opcodeRows, row.mask.extractLsb' 32 24 = BitVec.allOnes 24 ∧
      row.pattern.extractLsb' 32 24 = 0 := by decide
  obtain ⟨hmask, hpattern⟩ := hrows row hrow
  exact (extract_eq_of_matchesWord h hmask).trans hpattern

/-- No two rows have the same opcode, so at most one matches a word. -/
theorem row_eq_of_matchesWord (hrow : row ∈ opcodeRows) (hrow' : row' ∈ opcodeRows)
    (h : row.matchesWord word = true) (h' : row'.matchesWord word = true) : row = row' :=
  have hinj : ∀ row ∈ opcodeRows, ∀ row' ∈ opcodeRows,
      opField row.pattern = opField row'.pattern → row = row' := by decide
  hinj row hrow row' hrow'
    ((opField_eq_of_matchesWord hrow h).symm.trans (opField_eq_of_matchesWord hrow' h'))

/-- The row of a command's mnemonic matches its encoding, whichever the command. -/
theorem encodingRow (i : Instr) : Laws.EncodingRow.Statement i := by
  cases i with
  | begin w h => exact Laws.EncodingRow.begin w h
  | pixel r g b a => exact Laws.EncodingRow.pixel r g b a
  | encode => exact Laws.EncodingRow.encode
  | rdpal i => exact Laws.EncodingRow.rdpal i
  | rdidx x y => exact Laws.EncodingRow.rdidx x y
  | rdbpl off => exact Laws.EncodingRow.rdbpl off
  | rdstat => exact Laws.EncodingRow.rdstat
  | rdfinfo => exact Laws.EncodingRow.rdfinfo
  | srst => exact Laws.EncodingRow.srst

/-- Where a row's mask is clear a command has an operand field, so every word the row matches spells a command. -/
theorem exists_eq_encode_of_matchesWord (hrow : row ∈ opcodeRows) (h : row.matchesWord word = true) :
    ∃ i, word = encode i := by
  have hop := opField_eq_of_matchesWord hrow h
  have hrsv := rsvField_eq_zero_of_matchesWord hrow h
  simp only [opcodeRows, List.mem_cons, List.not_mem_nil, or_false] at hrow
  obtain rfl | rfl | rfl | rfl | rfl | rfl | rfl | rfl | rfl := hrow
  · exact ⟨.begin _ _, eq_encode_of_fields hop hrsv (extract_halves_append _).symm⟩
  · exact ⟨.pixel _ _ _ _, eq_encode_of_fields hop hrsv (extract_bytes_append _).symm⟩
  · exact ⟨.encode, eq_encode_of_fields hop hrsv (extract_eq_of_matchesWord h (by decide))⟩
  · have hclear : (operandArea word).extractLsb' 4 28 = 0 :=
      (BitVec.extractLsb'_extractLsb'_of_le (by decide)).trans (extract_eq_of_matchesWord h (by decide))
    exact ⟨.rdpal _, eq_encode_of_fields hop hrsv (zero_append_extract_nibble hclear).symm⟩
  · exact ⟨.rdidx _ _, eq_encode_of_fields hop hrsv (extract_halves_append _).symm⟩
  · exact ⟨.rdbpl _, eq_encode_of_fields hop hrsv rfl⟩
  · exact ⟨.rdstat, eq_encode_of_fields hop hrsv (extract_eq_of_matchesWord h (by decide))⟩
  · exact ⟨.rdfinfo, eq_encode_of_fields hop hrsv (extract_eq_of_matchesWord h (by decide))⟩
  · exact ⟨.srst, eq_encode_of_fields hop hrsv (extract_eq_of_matchesWord h (by decide))⟩

theorem legalWord_eq_true : legalWord word = true ↔ ∃ i, decodeWord word = .ok i := by
  simp only [legalWord, List.any_eq_true, decodeWord_eq_ok]
  constructor
  · rintro ⟨row, hrow, h⟩
    exact exists_eq_encode_of_matchesWord hrow h
  · rintro ⟨i, rfl⟩
    obtain ⟨row, hrow, -, h⟩ := encodingRow i
    exact ⟨row, hrow, h⟩

/-- Settles O1: a word that a row matches is the encoding of a command, and the row of that command's mnemonic is the
only one that matches it. -/
theorem decoderAcceptsExactlyTheLegalWords : Obligations.DecoderAcceptsExactlyTheLegalWords := by
  refine fun word => ⟨legalWord_eq_true, fun i row hd hrow h => ?_,
    fun row row' hrow hrow' h h' => row_eq_of_matchesWord hrow hrow' h h'⟩
  obtain ⟨row', hrow', hname, h'⟩ := encodingRow i
  rw [← decodeWord_eq_ok.mp hd] at h'
  rw [row_eq_of_matchesWord hrow hrow' h h', hname]

/-! ### Rejected words (R172) -/

theorem decodeWord_eq_unassigned : decodeWord word = .error .unassignedOpcode ↔
    opField word ∉ [0x01, 0x02, 0x03, 0x04, 0x05, 0x06, 0x07, 0x08, (0x0F : BitVec 8)] := by
  simp only [decodeWord, ite_acceptIf_eq_unassigned, List.mem_cons, List.not_mem_nil, or_false, not_or,
    and_true]

/-- Settles O3: a word of an assigned opcode is accepted, which makes it legal, or rejected for its reserved bits. -/
theorem illegalWordsAreRejectedByName : Obligations.IllegalWordsAreRejectedByName := by
  refine fun word => ⟨decodeWord_eq_unassigned, ?_⟩
  rw [← Bool.not_eq_true, legalWord_eq_true, ← opField, ← not_iff_comm.mp decodeWord_eq_unassigned.symm]
  cases hd : decodeWord word with
  | ok i => simp
  | error reason => cases reason <;> simp

end Sys2Proof

namespace Sys2Proof.Machine

/-! ### The assembler (R86, R87) -/

theorem assemble_eq_ok {c : AsmCommand} {word : CommandWord} :
    assemble c = .ok word ↔ c.inRange = true ∧ decodeWord word = .ok c.toInstr := by
  rw [decodeWord_eq_ok, assemble]
  split <;> simp [*, eq_comm]

/-- A field of a given value exists exactly when the value is in the field's range. -/
theorem exists_toNat_eq {n v : Nat} {P : BitVec n → Prop} :
    (∃ x : BitVec n, x.toNat = v ∧ P x) ↔ v < 2 ^ n ∧ P (BitVec.ofNat n v) := by
  constructor
  · rintro ⟨x, rfl, hx⟩
    exact ⟨x.isLt, by rwa [BitVec.ofNat_toNat, BitVec.setWidth_eq]⟩
  · rintro ⟨hv, hx⟩
    exact ⟨_, (BitVec.toNat_ofNat v n).trans (Nat.mod_eq_of_lt hv), hx⟩

/-- Settles O5: an assembled word decodes to its command, and an operand is in its range exactly when a field of that
value exists. -/
theorem assembledWordCarriesItsOperands : Obligations.AssembledWordCarriesItsOperands := by
  simp only [Obligations.AssembledWordCarriesItsOperands, assemble_eq_ok, AsmCommand.toInstr,
    exists_and_left, exists_toNat_eq]
  simp only [AsmCommand.inRange, Bool.and_eq_true, decide_eq_true_eq, ← Nat.lt_succ_iff,
    Nat.reduceSucc, Nat.reducePow, and_assoc, true_and, implies_true, and_self]

end Sys2Proof.Machine
end

section
/-! QUANTIZE and LOOKUP as the rules state them (spec/40_palette_builder.md R100-R102). -/

namespace Sys2Proof.Machine

variable {s : State} {c : Color} {i : PaletteIndex}

/-- Settles O12: each channel gives its bits 7 to 4, and a later channel stands 4 bits lower. -/
theorem quantizeDividesChannelsBySixteen : Obligations.QuantizeDividesChannelsBySixteen := by
  intro r g b
  have nibble (x : Channel) : (x.extractLsb' 4 4).toNat = x.toNat / 16 := by
    have hx := x.isLt
    rw [BitVec.extractLsb'_toNat, Nat.shiftRight_eq_div_pow]
    omega
  rw [quantize, BitVec.toNat_append, BitVec.toNat_append,
    ← Nat.shiftLeft_add_eq_or_of_lt (BitVec.isLt _), ← Nat.shiftLeft_add_eq_or_of_lt (BitVec.isLt _)]
  simp only [nibble, Nat.shiftLeft_eq]
  omega

/-- Settles O13: equal quotients give equal Quantized Colors, and PIXEL reads nothing else of a pixel. -/
theorem pixelIgnoresAlphaAndLowNibbles : Obligations.PixelIgnoresAlphaAndLowNibbles := by
  intro s r g b a r' g' b' a' hr hg hb
  have hcolor : quantize r g b = quantize r' g' b' := BitVec.eq_of_toNat_eq (by
    rw [quantizeDividesChannelsBySixteen, quantizeDividesChannelsBySixteen, hr, hg, hb])
  simp only [exec, execPixel, hcolor]

theorem lookup_eq_none_iff_palEntry_ne (h : s.pcount.toNat ≤ palCap) :
    lookup s c = none ↔ ∀ i : PaletteIndex, i.toNat < s.pcount.toNat → palEntry s i ≠ c := by
  simp only [lookup_eq_none, mem_livePal h, not_exists, not_and, ne_eq]

theorem mem_livePal_of_lookup (found : lookup s c = some i) : c ∈ livePal s := by
  by_contra hnew
  simp [lookup_eq_none.mpr hnew] at found

/-- Settles O14: LOOKUP finds the least live index, and finds none exactly when the color is not in the live
palette. -/
theorem lookupIsTheLeastMatchingLiveIndex : Obligations.LookupIsTheLeastMatchingLiveIndex :=
  fun _ _ h => ⟨fun _ => lookup_eq_some h, lookup_eq_none_iff_palEntry_ne h⟩

/-- Live entries are pairwise distinct, so the index of a live color is the one LOOKUP answers. -/
theorem Inv.lookup_palEntry (h : Inv s) (hi : i.toNat < s.pcount.toNat) :
    lookup s (palEntry s i) = some i := by
  refine (lookup_eq_some h.pcount_le).mpr ⟨hi, rfl, fun j hj heq => ?_⟩
  have hsame : (livePal s)[j.toNat]? = (livePal s)[i.toNat]? := by
    rw [livePal_getElem? (hj.trans hi), livePal_getElem? hi, heq]
  have hlen : j.toNat < (livePal s).length := by rw [livePal_length h.pcount_le]; exact hj.trans hi
  exact hj.ne ((List.getElem?_inj hlen h.pal_distinct).mp hsame)

end Sys2Proof.Machine
end

section
/-! What BEGIN and PIXEL do (spec/40_palette_builder.md R104-R107, R109). -/

namespace Sys2Proof.Machine

variable {s t u : State} {c : Color} {i : PaletteIndex} {r g b a : Channel}

/-! ### BEGIN -/

theorem imageFits_eq_true {cfg : Config} {w h : BitVec 16} :
    imageFits cfg w h = true ↔ w.toNat ≤ cfg.maxW ∧ h.toNat ≤ cfg.maxH := by
  simp only [imageFits, Bool.and_eq_true, decide_eq_true_eq]

/-- Settles O15: the cases of BEGIN's inversion lemma. -/
theorem beginOpensAnImage : Obligations.BeginOpensAnImage := by
  intro s w h
  refine ⟨rfl, fun hf => ?_, fun hl hbig => ?_, fun hl hw hh => ?_⟩
  · exact exec_begin_eq_next.mpr (.inl ⟨hf, rfl⟩)
  · have hfit : imageFits s.cfg w h = false := by
      rw [← Bool.not_eq_true, imageFits_eq_true]
      omega
    exact exec_begin_eq_next.mpr (.inr (.inl ⟨hl, hfit, rfl⟩))
  · exact exec_begin_eq_next.mpr (.inr (.inr ⟨hl, imageFits_eq_true.mpr ⟨hw, hh⟩, rfl⟩))

/-! ### An accepted pixel -/

/-- The state an accepted pixel leaves, in terms of the one it found (R107). -/
theorem PaletteStep.recorded_eq (hu : PaletteStep c s u i) (hr : recordIndex i u = .ok t) :
    t = advanceCursor { s with
      pal := u.pal, pcount := u.pcount, idx := Memory.write s.idx s.n.toNat i } := by
  obtain ⟨-, rfl⟩ := recordIndex_eq_ok.mp hr
  obtain ⟨pal, count, rfl⟩ := hu.registers
  rfl

/-- A color that takes a palette step is live, or the palette has room for it (R106). -/
theorem PaletteStep.live_or_room (hu : PaletteStep c s u i) : ¬(c ∉ livePal s ∧ s.pcount = 16) := by
  rintro ⟨hnew, hfull⟩
  cases hu with
  | known found => exact hnew (mem_livePal_of_lookup found)
  | appended _ room => exact room hfull

/-- The index of an accepted pixel names the pixel's own color (R106, R107). -/
theorem PaletteStep.palEntry_eq (hle : s.pcount.toNat ≤ palCap) (hu : PaletteStep c s u i) :
    palEntry u i = c := by
  cases hu with
  | known found =>
    obtain ⟨-, hentry, -⟩ := (lookup_eq_some hle).mp found
    exact hentry
  | appended _ room => exact palEntry_appendColor_new (pcount_lt_palCap hle room)

/-- Everything a PIXEL in BUILD can do under the invariant: it overflows the palette, or it is accepted. -/
theorem exec_pixel_build (r g b a : Channel) (h : Inv s) (hb : s.phase = .build) :
    ∃ t, exec (.pixel r g b a) s = .next t ∧
      ((quantize r g b ∉ livePal s ∧ s.pcount = 16 ∧ t = raiseFault .paletteOverflow s.n s) ∨
        ∃ u i, PaletteStep (quantize r g b) s u i ∧ recordIndex i u = .ok t) := by
  obtain ⟨t, hx⟩ := exec_isNext h (.pixel r g b a)
  refine ⟨t, hx, ?_⟩
  obtain ⟨hf, -⟩ | ⟨-, hnb, -⟩ | ⟨-, habs, hfull, ht⟩ | ⟨-, habs, hroom, hr⟩ | ⟨-, k, hk, hr⟩ :=
    exec_pixel_eq_next.mp hx
  · simp [hb] at hf
  · exact absurd hb hnb
  · exact .inl ⟨lookup_eq_none.mp habs, hfull, ht⟩
  · exact .inr ⟨_, _, .appended habs hroom, hr⟩
  · exact .inr ⟨_, _, .known hk, hr⟩

/-- Settles O17: an accepted pixel leaves the fault code clear, and its index in its cell. -/
theorem pixelOverflowsExactlyOnASeventeenthColor :
    Obligations.PixelOverflowsExactlyOnASeventeenthColor := by
  intro s r g b a h hb
  obtain ⟨t, hx, ⟨hnew, hfull, rfl⟩ | ⟨u, i, hu, hr⟩⟩ := exec_pixel_build r g b a h hb
  · exact ⟨_, hx, iff_of_true rfl ⟨hnew, hfull⟩, .inl rfl⟩
  · have hcode : s.fcode = .none := by simpa [hb] using h.fcode_fault
    have hlive := hu.index_live h.pcount_le
    have hentry := hu.palEntry_eq h.pcount_le
    obtain rfl := hu.recorded_eq hr
    exact ⟨_, hx, iff_of_false (by simp [hcode]) hu.live_or_room,
      .inr ⟨i, Memory.read_write_same _ _ _, hlive, hentry⟩⟩

/-! ### PIXEL, case by case -/

/-- Under the invariant a pixel in BUILD that takes a palette step is accepted (R107). -/
theorem exec_pixel_of_paletteStep (h : Inv s) (hb : s.phase = .build)
    (hu : PaletteStep (quantize r g b) s u i) :
    exec (.pixel r g b a) s = .next { s with
      pal := u.pal
      pcount := u.pcount
      idx := Memory.write s.idx s.n.toNat i
      n := s.n + 1
      phase := if s.n.toNat + 1 = s.w.toNat * s.h.toNat then .ready else .build } := by
  obtain ⟨t, hr⟩ := recordIndex_isOk h hb hu
  have hx : exec (.pixel r g b a) s = .next t := by
    rw [exec_pixel_eq_next]
    cases hu with
    | known found => exact .inr (.inr (.inr (.inr ⟨hb, i, found, hr⟩)))
    | appended absent room => exact .inr (.inr (.inr (.inl ⟨hb, absent, room, hr⟩)))
  rw [hx, hu.recorded_eq hr, advanceCursor, n_succ_toNat (h.build_open hb), hb]
  rfl

/-- Settles O16: the cases of PIXEL's inversion lemma, the last two as the two palette steps. -/
theorem pixelAcceptsTheNextPixel : Obligations.PixelAcceptsTheNextPixel := by
  intro s r g b a
  refine ⟨rfl, fun hf => ?_, fun hl hb => ?_, fun hb hfull hnew => ?_, fun h hb i hi hc => ?_,
    fun h hb hroom hnew => ?_⟩
  · exact exec_pixel_eq_next.mpr (.inl ⟨hf, rfl⟩)
  · exact exec_pixel_eq_next.mpr (.inr (.inl ⟨hl, hb, rfl⟩))
  · have habs : lookup s (quantize r g b) = none :=
      (lookup_eq_none_iff_palEntry_ne (by simp [hfull])).mpr fun i _ => hnew i
    exact exec_pixel_eq_next.mpr (.inr (.inr (.inl ⟨hb, habs, hfull, rfl⟩)))
  · exact exec_pixel_of_paletteStep h hb (.known (hc ▸ h.lookup_palEntry hi))
  · have habs := (lookup_eq_none_iff_palEntry_ne h.pcount_le).mpr hnew
    exact exec_pixel_of_paletteStep h hb (.appended habs fun hfull => by simp [hfull] at hroom)

/-! ### Frames -/

/-- A palette step writes no entry but the one at the fill count (R107). -/
theorem PaletteStep.palEntry_other {j : PaletteIndex} (hu : PaletteStep c s u i)
    (hj : j.toNat ≠ s.pcount.toNat) : palEntry u j = palEntry s j := by
  cases hu with
  | known => rfl
  | appended => simp [palEntry, hj.symm]

/-- An accepted pixel raises no fault. -/
theorem PaletteStep.recorded_phase_ne_fault (hu : PaletteStep c s u i) (hb : s.phase = .build)
    (hr : recordIndex i u = .ok t) : t.phase ≠ .fault := by
  rw [hu.recorded_eq hr, advanceCursor_phase]
  split <;> simp [hb]

/-- Settles O18, by the kind of PIXEL's effect. -/
theorem pixelFrame : Obligations.PixelFrame := by
  intro s t r g b a hx
  cases effect_of_exec hx with
  | ignored => simp
  | raised => simp [palEntry]
  | responded kind => cases kind
  | recorded building palette stored =>
    have hlive := palette.recorded_phase_ne_fault building stored
    obtain rfl := palette.recorded_eq stored
    exact ⟨fun k hk => Memory.read_write_other _ _ hk, fun _ => rfl,
      fun j hj => palette.palEntry_other hj, rfl, rfl, rfl, rfl, rfl, rfl,
      fun _ => ⟨rfl, rfl⟩, fun hf => absurd hf hlive⟩

/-- Settles O47, by the kind of the command's effect: only those of BEGIN, SRST and PIXEL write the image, and
PIXEL's needs the phase BUILD. -/
theorem completeImageIsImmutable : Obligations.CompleteImageIsImmutable := by
  intro s t i hx hcomplete hbegin hsrst
  cases effect_of_exec hx with
  | ignored => simp
  | raised => simp
  | responded => simp
  | cleared => exact absurd rfl hsrst
  | opened => exact absurd rfl (hbegin _ _)
  | recorded building => simp [building] at hcomplete
  | packed _ _ filled =>
    obtain ⟨heq, -⟩ := encodeImage_eq_ok filled
    rw [heq]
    simp

end Sys2Proof.Machine
end

section
/-! Whole rasters: the palette after any number of accepted pixels (spec/40_palette_builder.md R106, R108). -/

namespace Sys2Proof.Machine

variable {s t u : State} {c : Color} {i : PaletteIndex} {p : Pixel}
  {done colors : List Color} {pixels : List Pixel}

/-! ### The reference palette -/

theorem mem_firstOccurrences : c ∈ firstOccurrences colors ↔ c ∈ colors := by
  induction colors with
  | nil => rfl
  | cons d rest ih =>
    by_cases hd : c = d <;> simp [firstOccurrences, ih, hd]

/-- One more color is appended if it has not occurred, and changes nothing otherwise. -/
theorem firstOccurrences_concat : firstOccurrences (colors ++ [c]) =
    if c ∈ colors then firstOccurrences colors else firstOccurrences colors ++ [c] := by
  induction colors with
  | nil => rfl
  | cons d rest ih =>
    by_cases hrest : c ∈ rest
    · simp [firstOccurrences, ih, hrest]
    · rw [if_neg hrest] at ih
      obtain rfl | hd := eq_or_ne d c
      · simp [firstOccurrences, ih]
      · simp [firstOccurrences, ih, hrest, hd.symm]

/-- The palette of a longer stream begins with that of the shorter one. -/
theorem firstOccurrences_isPrefix_append (more : List Color) :
    firstOccurrences done <+: firstOccurrences (done ++ more) := by
  induction more generalizing done with
  | nil => rw [List.append_nil]
  | cons c more ih =>
    have hstep : firstOccurrences done <+: firstOccurrences (done ++ [c]) := by
      rw [firstOccurrences_concat]
      split
      · exact List.prefix_rfl
      · exact List.prefix_append _ _
    rw [List.append_cons]
    exact hstep.trans ih

/-! ### Runs of commands -/

theorem runCommands_cons {j : Instr} {rest : List Instr} (hx : exec j s = .next t) :
    runCommands (j :: rest) s = runCommands rest t := by rw [runCommands, hx]

theorem runCommands_append {xs ys : List Instr} (h : runCommands xs s = .next t) :
    runCommands (xs ++ ys) s = runCommands ys t := by
  induction xs generalizing s with
  | nil =>
    cases h
    rfl
  | cons i rest ih =>
    rw [runCommands] at h
    split at h
    · next u hx => exact (runCommands_cons hx).trans (ih h)
    · cases h
    · cases h

/-- In FAULT the rest of a stream of pixels is ignored (R173). -/
theorem runCommands_pixels_ignored (hf : s.phase = .fault) :
    runCommands (pixels.map pixelCommand) s = .next s := by
  induction pixels with
  | nil => rfl
  | cons p rest ih =>
    have hx : exec (pixelCommand p) s = .next s := exec_ignored hf rfl
    rw [List.map_cons, runCommands_cons hx, ih]

/-! ### The state after some accepted pixels -/

/-- The state after pixels of the given colors were accepted: the invariant, and R108 for what came so far. -/
structure Built (done : List Color) (s : State) : Prop where
  inv : Inv s
  /-- Every pixel was accepted (R27). -/
  count : s.n.toNat = done.length
  /-- More pixels are expected until the raster is full (R29). -/
  phase : s.phase = if done.length = area s then .ready else .build
  /-- The palette is the distinct colors in first-occurrence order (R108 item 4). -/
  palette : livePal s = firstOccurrences done
  /-- The index of every pixel names its color (R108 item 2). -/
  cells : ∀ k c, done[k]? = some c → ∃ v ∈ Memory.read s.idx k, (livePal s)[v.toNat]? = some c

theorem Built.phase_build (h : Built done s) (hopen : done.length < area s) : s.phase = .build :=
  h.phase.trans (if_neg hopen.ne)

theorem Built.pcount_eq (h : Built done s) : s.pcount.toNat = (firstOccurrences done).length := by
  rw [← h.palette, livePal_length h.inv.pcount_le]

/-- A freshly opened image has accepted no pixel. -/
theorem Inv.built_nil (h : Inv s) (hb : s.phase = .build) (hn : s.n = 0) : Built [] s where
  inv := h
  count := by simp [hn]
  phase := by
    have hopen : 0 < area s := by simpa [hn] using h.build_open hb
    exact hb.trans (if_neg hopen.ne).symm
  palette := by
    have hcount : s.pcount = 0 := h.pcount_zero.mpr hn
    simp [livePal, hcount, firstOccurrences]
  cells := nofun

/-- A palette step on the palette of some colors gives that of one color more (R108 item 4). -/
theorem PaletteStep.livePal_eq_firstOccurrences (hle : s.pcount.toNat ≤ palCap)
    (hu : PaletteStep c s u i) (hpalette : livePal s = firstOccurrences done) :
    livePal u = firstOccurrences (done ++ [c]) := by
  have hmem : c ∈ done ↔ c ∈ livePal s := by rw [hpalette, mem_firstOccurrences]
  rw [firstOccurrences_concat, ← hpalette]
  cases hu with
  | known found => rw [if_pos (hmem.mpr (mem_livePal_of_lookup found))]
  | appended absent room =>
    rw [if_neg (mt hmem.mp (lookup_eq_none.mp absent)),
      livePal_appendColor (pcount_lt_palCap hle room)]

/-- With the index of one more pixel in its cell, every pixel's index names its color (R108 item 2). -/
theorem Built.cell_recorded (h : Built done s) (hu : PaletteStep c s u i) {k : Nat} {d : Color}
    (hk : (done ++ [c])[k]? = some d) :
    ∃ v ∈ Memory.read (Memory.write s.idx s.n.toNat i) k, (livePal u)[v.toNat]? = some d := by
  have hle := h.inv.pcount_le
  rw [Memory.read_write, h.count]
  obtain hold | rfl | hbeyond := Nat.lt_trichotomy k done.length
  · rw [List.getElem?_append_left hold] at hk
    obtain ⟨v, hv, hcolor⟩ := h.cells k d hk
    refine ⟨v, by rwa [if_neg hold.ne], ?_⟩
    obtain ⟨more, hmore⟩ := hu.livePal_grows hle
    obtain ⟨hlt, -⟩ := List.getElem?_eq_some_iff.mp hcolor
    rwa [← hmore, List.getElem?_append_left hlt]
  · rw [List.getElem?_concat_length] at hk
    refine ⟨i, if_pos rfl, ?_⟩
    rw [livePal_getElem? (hu.index_live hle), hu.palEntry_eq hle, hk]
  · obtain ⟨hlt, -⟩ := List.getElem?_eq_some_iff.mp hk
    rw [List.length_append, List.length_singleton] at hlt
    omega

/-- An accepted pixel extends the accepted pixels by its color. -/
theorem Built.recorded (h : Built done s)
    (hopen : done.length < area s) (hu : PaletteStep c s u i) (hr : recordIndex i u = .ok t) :
    Built (done ++ [c]) t ∧ area t = area s := by
  have hb := h.phase_build hopen
  have hle := h.inv.pcount_le
  have hinv := inv_recordIndex h.inv hb hu hr
  obtain ⟨hn, hphase⟩ := recordIndex_n_phase hb (h.inv.build_open hb) hu hr
  have hlen : t.n.toNat = (done ++ [c]).length := by
    rw [hn, h.count, List.length_append, List.length_singleton]
  have hpalette := hu.livePal_eq_firstOccurrences hle h.palette
  have hcells (k : Nat) (d : Color) (hk : (done ++ [c])[k]? = some d) := h.cell_recorded hu hk
  obtain rfl := hu.recorded_eq hr
  refine ⟨⟨hinv, hlen, ?_, hpalette, hcells⟩, rfl⟩
  rw [← hlen]
  obtain ⟨hdone, hready⟩ | ⟨hmore, hbuild⟩ := hphase
  · exact hready.trans (if_pos hdone).symm
  · exact hbuild.trans (if_neg hmore.ne).symm

/-- A pixel whose color the palette holds or has room for is accepted (R106). -/
theorem Built.exec_pixel (h : Built done s) (hopen : done.length < area s)
    (few : (firstOccurrences (done ++ [pixelColor p])).length ≤ palCap) :
    ∃ t, exec (pixelCommand p) s = .next t ∧ Built (done ++ [pixelColor p]) t ∧ area t = area s := by
  obtain ⟨t, hx, ⟨hnew, hfull, -⟩ | ⟨u, i, hu, hr⟩⟩ := 
    exec_pixel_build p.1 p.2.1 p.2.2.1 p.2.2.2 h.inv (h.phase_build hopen)
  · have hnew : pixelColor p ∉ done := by rwa [h.palette, mem_firstOccurrences] at hnew
    rw [firstOccurrences_concat, if_neg hnew, List.length_append, ← h.pcount_eq, hfull] at few
    exact absurd few (Nat.not_succ_le_self 16)
  · exact ⟨t, hx, h.recorded hopen hu hr⟩

/-- Pixels that fit the raster and the palette are all accepted (R108). -/
theorem Built.run_pixels (h : Built done s) (fits : done.length + pixels.length ≤ area s)
    (few : (firstOccurrences (done ++ pixels.map pixelColor)).length ≤ palCap) :
    ∃ t, runCommands (pixels.map pixelCommand) s = .next t ∧
      Built (done ++ pixels.map pixelColor) t ∧ area t = area s := by
  induction pixels generalizing done s with
  | nil => exact ⟨s, rfl, by simpa using h, rfl⟩
  | cons p rest ih =>
    rw [List.length_cons] at fits
    rw [List.map_cons, List.append_cons] at few
    have hfew := (firstOccurrences_isPrefix_append _).length_le.trans few
    obtain ⟨u, hx, hu, hau⟩ := h.exec_pixel (by omega) hfew
    obtain ⟨t, ht, hbuilt, hat⟩ := ih hu (by simp; omega) few
    rw [List.map_cons, List.map_cons, List.append_cons]
    exact ⟨t, (runCommands_cons hx).trans ht, hbuilt, hat.trans hau⟩

/-- Settles O20: all pixels are accepted, and they fill the raster. -/
theorem paletteHoldsFirstOccurrencesInOrder : Obligations.PaletteHoldsFirstOccurrencesInOrder := by
  intro s pixels h hb hn (hlen : pixels.length = area s) few
  obtain ⟨t, hrun, hbuilt, harea⟩ :=
    (h.built_nil hb hn).run_pixels (pixels := pixels) (by simpa using hlen.le) few
  have hfull : (pixels.map pixelColor).length = area t := by
    rw [List.length_map, hlen, harea]
  exact ⟨t, hrun, hbuilt.phase.trans (if_pos hfull), hbuilt.palette, hbuilt.cells⟩

/-- A pixel with a new color overflows a full palette (R106). -/
theorem Built.exec_pixel_overflow (h : Built done s) (hopen : done.length < area s)
    (hfull : (firstOccurrences done).length = 16) (hnew : pixelColor p ∉ done) :
    exec (pixelCommand p) s = .next (raiseFault .paletteOverflow s.n s) := by
  have habs : lookup s (pixelColor p) = none := by
    rw [lookup_eq_none, h.palette, mem_firstOccurrences]
    exact hnew
  have hcount : s.pcount = 16 := BitVec.eq_of_toNat_eq (h.pcount_eq.trans hfull)
  exact exec_pixel_eq_next.mpr (.inr (.inr (.inl ⟨h.phase_build hopen, habs, hcount, rfl⟩)))

/-- Settles O21: the pixels before number `k` are accepted, pixel `k` overflows, and the rest is ignored. -/
theorem seventeenthColorRaisesPaletteOverflow : Obligations.SeventeenthColorRaisesPaletteOverflow := by
  intro s pixels k h hb hn (hlen : pixels.length ≤ area s) hk h16 h17
  rw [← List.map_take] at h16 h17 ⊢
  rw [← List.take_append_getElem hk, List.map_append, List.map_singleton] at h17
  have htake : (pixels.take k).length = k := List.length_take_of_le hk.le
  obtain ⟨t, hrun, hbuilt, harea⟩ := (h.built_nil hb hn).run_pixels (pixels := pixels.take k)
    (by simpa [htake] using hk.le.trans hlen) h16.le
  have hcount : ((pixels.take k).map pixelColor).length = k := by rw [List.length_map, htake]
  have hopen : ((pixels.take k).map pixelColor).length < area t := by
    rw [hcount, harea]
    exact hk.trans_le hlen
  have hnew : pixelColor pixels[k] ∉ (pixels.take k).map pixelColor := fun hmem => by
    rw [firstOccurrences_concat, if_pos hmem, h16] at h17
    exact absurd h17 (by decide)
  have hoverflow := hbuilt.exec_pixel_overflow hopen h16 hnew
  refine ⟨raiseFault .paletteOverflow t.n t, ?_, rfl, rfl, hbuilt.count.trans hcount, hbuilt.palette⟩
  rw [← List.take_append_drop k pixels, List.drop_eq_getElem_cons hk, List.map_append, List.map_cons,
    runCommands_append hrun, runCommands_cons hoverflow, runCommands_pixels_ignored rfl]

end Sys2Proof.Machine
end

section
/-! The functions of the encoder: PLANES, PALWORD, PACK and the offsets of the buffer
(spec/41_bitplane_encoder.md R121-R124, R127). -/

namespace Sys2Proof.Machine

variable {s : State} {y p b : Nat} {v : Byte}

/-! ### PLANES -/

theorem planes_of_two_le {policy : SingleColorPolicy} {count : Nat} (h : 2 ≤ count) :
    planes policy count = .ok (bitlength (count - 1)) := by
  obtain ⟨k, rfl⟩ := Nat.exists_eq_add_of_le' h
  rfl

/-- The plane count is the number of binary digits that tell `count` indices apart. -/
theorem bitlength_pred_eq_clog {count : Nat} (h : 1 ≤ count) :
    bitlength (count - 1) = Nat.clog 2 count := by
  have upper : count ≤ 2 ^ Nat.clog 2 count := Nat.le_pow_clog Nat.one_lt_two count
  have lower : count - 1 < 2 ^ bitlength (count - 1) := lt_two_pow_bitlength (count - 1)
  exact Nat.le_antisymm (bitlength_le_of_lt (by omega)) (Nat.clog_le_of_le_pow (by omega))

theorem bitlength_pred_table : ∀ count ≤ 16, 2 ≤ count →
    bitlength (count - 1) =
      if count = 2 then 1 else if count ≤ 4 then 2 else if count ≤ 8 then 3 else 4 := by
  decide

/-- Settles O23: the palette sizes 0 and 1 by definition, the others by the bounds on `bitlength`. -/
theorem planesFollowTheTable : Obligations.PlanesFollowTheTable :=
  ⟨fun _ => rfl, rfl, rfl, fun _ count h2 h16 =>
    ⟨planes_of_two_le h2, bitlength_pred_eq_clog (Nat.one_le_of_lt h2),
      bitlength_pred_table count h16 h2⟩⟩

/-- PLANES has a value for every palette that raises no fault of ENCODE (R126). -/
theorem planes_isOk {policy : SingleColorPolicy} {count : Nat} (hne : count ≠ 0)
    (hone : ¬(count = 1 ∧ policy = .fault)) : ∃ np, planes policy count = .ok np := by
  cases hp : planes policy count with
  | ok np => exact ⟨np, rfl⟩
  | error code =>
    obtain ⟨-, hzero⟩ | ⟨-, hfault⟩ := planes_eq_error hp
    · exact absurd hzero hne
    · exact absurd hfault hone

/-! ### PALWORD -/

theorem palWord_toNat (r g b : BitVec 4) :
    (palWord (r ++ g ++ b)).toNat = (r.toNat <<< 4 ||| g.toNat) <<< 4 ||| b.toNat := by
  rw [palWord, BitVec.toNat_setWidth_of_le (by decide), BitVec.toNat_append, BitVec.toNat_append]

/-- The channels are the digits of the word's value to the base 16. -/
theorem palWord_toNat_eq_digits (r g b : BitVec 4) :
    (palWord (r ++ g ++ b)).toNat = r.toNat * 256 + g.toNat * 16 + b.toNat := by
  rw [palWord_toNat, ← Nat.shiftLeft_add_eq_or_of_lt b.isLt, ← Nat.shiftLeft_add_eq_or_of_lt g.isLt]
  simp only [Nat.shiftLeft_eq]
  omega

theorem nibble_eq_of_digit {word : PaletteWord} {k : Nat} {x : BitVec 4}
    (h : word.toNat / 2 ^ k % 16 = x.toNat) : (word >>> k) &&& 0xF = x.setWidth 16 := by
  refine BitVec.eq_of_toNat_eq ?_
  rw [BitVec.toNat_and, BitVec.toNat_ushiftRight, Nat.shiftRight_eq_div_pow,
    BitVec.toNat_setWidth_of_le (by decide), ← h]
  exact Nat.and_two_pow_sub_one_eq_mod _ 4

/-- Settles O24: each nibble of the word is a digit of its value to the base 16. -/
theorem paletteWordRoundTrips : Obligations.PaletteWordRoundTrips := by
  intro r g b
  have hr := r.isLt
  have hg := g.isLt
  have hb := b.isLt
  have hword := palWord_toNat_eq_digits r g b
  refine ⟨?_, nibble_eq_of_digit (by omega), nibble_eq_of_digit (by omega), ?_⟩
  · rw [palWord_toNat, Nat.shiftLeft_or_distrib, ← Nat.shiftLeft_add]
  · rw [← BitVec.ushiftRight_zero (palWord _)]
    exact nibble_eq_of_digit (by omega)

/-! ### PACK -/

/-- Inside the width a bit of a packed byte is its plane's bit of the pixel's index (R123). -/
theorem packByte_pixel_bit (hv : packByte s y p b = .ok v) {j : Nat} (hj : j < 8)
    (hx : 8 * b + (7 - j) < s.w.toNat) :
    ∃ i ∈ Memory.read s.idx (idxAddr s (8 * b + (7 - j)) y), v.getLsbD j = i.getLsbD p := by
  have hbit := packBit_eq_ok.mp (packBit_of_packBits hv hj)
  rw [if_pos hx] at hbit
  obtain ⟨i, hread, heq⟩ := hbit
  obtain ⟨-, hi⟩ := readIdx_eq_ok.mp hread
  exact ⟨i, hi, heq⟩

/-- At or past the width a bit of a packed byte is padding (R125). -/
theorem packByte_padding_bit (hv : packByte s y p b = .ok v) {j : Nat} (hj : j < 8)
    (hx : s.w.toNat ≤ 8 * b + (7 - j)) : v.getLsbD j = false := by
  have hbit := packBit_eq_ok.mp (packBit_of_packBits hv hj)
  rwa [if_neg (Nat.not_lt.mpr hx)] at hbit

/-- Settles O25: the two cases of PACKBIT, and the readable raster of a complete image. -/
theorem packedByteHoldsPlaneBitsLeftmostFirst :
    Obligations.PackedByteHoldsPlaneBitsLeftmostFirst :=
  fun _ _ _ _ =>
    ⟨fun _ hv _ hj => ⟨packByte_pixel_bit hv hj, packByte_padding_bit hv hj⟩,
      fun h hphase hy => packByte_isOk hy fun _ hk => h.exists_readIdx_of_full hphase hk⟩

/-- Column `x` stands in byte `x div 8` at bit `7 - x mod 8` (R54). -/
theorem column_of_bit (x : Nat) : 8 * (x / 8) + (7 - (7 - x % 8)) = x := by omega

/-! ### Offsets -/

/-- Settles O29: every number below the size has its position, and offsets are injective. -/
theorem offsetsFillTheBufferExactly : Obligations.OffsetsFillTheBufferExactly := by
  intro h np bw
  refine ⟨fun y p b => bplOffset_lt, fun o ho => ?_⟩
  obtain ⟨hy, hp, hb, heq⟩ := bplOffset_of_offset ho
  refine ⟨(o / (np * bw), o / bw % np, o % bw), ⟨hy, hp, hb, heq⟩, ?_⟩
  rintro ⟨y', p', b'⟩ ⟨-, hp', hb', heq'⟩
  obtain ⟨rfl, rfl, rfl⟩ := bplOffset_injective hp' hb' hp hb (heq'.trans heq.symm)
  rfl

end Sys2Proof.Machine
end

section
/-! What ENCODE does and what it leaves unchanged (spec/41_bitplane_encoder.md R120, R126). -/

namespace Sys2Proof.Machine

variable {s t : State} {np : Nat}

/-- The register `NP` holds every plane count of a 5-bit fill count without loss (R28). -/
theorem planes_toNat {policy : SingleColorPolicy} {count : BitVec 5}
    (hp : planes policy count.toNat = .ok np) : (BitVec.ofNat 3 np).toNat = np :=
  Nat.mod_eq_of_lt (planes_lt_eight hp count.isLt)

/-- In READY a palette without a plane count raises the fault that PLANES names (R126). -/
theorem exec_encode_of_planes_error {code : FaultCode} (hr : s.phase = .ready)
    (hp : planes s.cfg.policy s.pcount.toNat = .error code) :
    exec .encode s = .next (raiseFault code 0 s) :=
  exec_encode_eq_next.mpr (.inr (.inr (.inl ⟨hr, code, hp, rfl⟩)))

/-- Under the invariant ENCODE in READY succeeds where PLANES has a value. -/
theorem exec_encode_of_planes_ok (h : Inv s) (hr : s.phase = .ready)
    (hp : planes s.cfg.policy s.pcount.toNat = .ok np) :
    ∃ t, exec .encode s = .next t ∧ encodeImage np s = .ok t := by
  obtain ⟨-, hnp, -⟩ := planes_bounds hp h.pcount_le
  obtain ⟨t, ht⟩ := encodeImage_isOk
    (fun _ hk => h.exists_readIdx_of_full (.inl hr) hk) h.w_le h.h_le hnp
  exact ⟨t, exec_encode_eq_next.mpr (.inr (.inr (.inr ⟨hr, np, hp, ht⟩))), ht⟩

/-- Settles O26: the cases of ENCODE's inversion lemma, the last by what the buffer fill does. -/
theorem encodePacksTheBitplaneBuffer : Obligations.EncodePacksTheBitplaneBuffer := by
  intro s
  refine ⟨rfl, fun hf => ?_, fun hl hr => ?_, fun hr hc => ?_, fun hr hc hpol => ?_,
    fun h hr hne hone => ?_⟩
  · exact exec_encode_eq_next.mpr (.inl ⟨hf, rfl⟩)
  · exact exec_encode_eq_next.mpr (.inr (.inl ⟨hl, hr, rfl⟩))
  · exact exec_encode_of_planes_error hr (by rw [hc]; rfl)
  · exact exec_encode_of_planes_error hr (by rw [hc, hpol]; rfl)
  · have hcount : s.pcount.toNat ≠ 0 := fun hz => hne (BitVec.eq_of_toNat_eq hz)
    have hcount1 : ¬(s.pcount.toNat = 1 ∧ s.cfg.policy = .fault) := fun ⟨hc, hpol⟩ =>
      hone ⟨BitVec.eq_of_toNat_eq hc, hpol⟩
    obtain ⟨np, hp⟩ := planes_isOk hcount hcount1
    obtain ⟨hnp1, hnp4, -⟩ := planes_bounds hp h.pcount_le
    obtain ⟨t, hx, ht⟩ := exec_encode_of_planes_ok h hr hp
    obtain ⟨heq, hpacked, habove, -⟩ := encodeImage_eq_ok ht
    refine ⟨np, t, hp, hnp1, hnp4, hx, heq, fun y p b hy hpl hb => ?_, habove⟩
    obtain ⟨v, hv, hread⟩ := hpacked y p b hy hpl hb
    exact ⟨v, hread, hv⟩

/-- A filled buffer leaves every byte at no position's offset as it was: such a byte lies above the buffer. -/
theorem encodeImage_read_other (he : encodeImage np s = .ok t) {o : Nat}
    (ho : ∀ y p b, y < s.h.toNat → p < np → b < byteWidth s.w.toNat →
      bplOffset np (byteWidth s.w.toNat) y p b ≠ o) :
    Memory.read t.bpl o = Memory.read s.bpl o := by
  obtain ⟨-, -, habove, -⟩ := encodeImage_eq_ok he
  refine habove o (Nat.le_of_not_lt fun hlt => ?_)
  obtain ⟨hy, hp, hb, heq⟩ := bplOffset_of_offset hlt
  exact ho _ _ _ hy hp hb heq

/-- Settles O27, by the kind of ENCODE's effect. -/
theorem encodeFrame : Obligations.EncodeFrame := by
  intro s t hx
  cases effect_of_exec hx with
  | ignored faulted => simp [faulted]
  | raised => simp
  | responded kind => cases kind
  | @packed np _ ready count filled =>
    have hother := fun o => encodeImage_read_other filled (o := o)
    obtain ⟨heq, -⟩ := encodeImage_eq_ok filled
    have hnp : t.np.toNat = np := by rw [heq]; exact planes_toNat count
    rw [hnp]
    generalize t.bpl = bpl at *
    subst heq
    simpa using hother

end Sys2Proof.Machine
end

section
/-! The bitplane buffer of an encoded image (spec/41_bitplane_encoder.md R125, R128, R129). -/

namespace Sys2Proof.Machine

variable {s : State}

/-- Settles O30: a live index is below `PCOUNT`, which is at most `2^NP`. -/
theorem planesSufficeForEveryIndex : Obligations.PlanesSufficeForEveryIndex := by
  intro s np h hp k hk
  obtain ⟨v, hv, hlive⟩ := h.idx_live k hk
  obtain ⟨-, -, -, hcount⟩ := planes_bounds hp h.pcount_le
  have hlt : v.toNat < 2 ^ np := hlive.trans_le hcount
  refine ⟨v, hv, hlt, fun p hle => ?_⟩
  exact Nat.testBit_eq_false_of_lt (hlt.trans_le (Nat.pow_le_pow_right Nat.two_pos hle))

section Encoded

variable (h : Inv s) (he : s.phase = .encoded)
include h he

/-- An encoded image is not empty (R126). -/
theorem Inv.w_pos_of_encoded : 0 < s.w.toNat := by
  obtain ⟨hp, -⟩ := h.np_encoded he
  obtain ⟨-, -, hcount, -⟩ := planes_bounds hp h.pcount_le
  have harea : 0 < s.w.toNat * s.h.toNat :=
    (hcount.trans h.pcount_le_n).trans_eq (h.raster_full (.inr he))
  exact Nat.pos_of_mul_pos_right harea

/-- The bit of an encoded image for column `x` of the raster (R54, R127). -/
theorem Inv.encoded_pixel_bit {x y p : Nat} {v : PaletteIndex} (hx : x < s.w.toNat)
    (hy : y < s.h.toNat) (hp : p < s.np.toNat) (hv : Memory.read s.idx (idxAddr s x y) = some v) :
    ∃ u, Memory.read s.bpl (bplOffset s.np.toNat (byteWidth s.w.toNat) y p (x / 8)) = some u ∧
      u.getLsbD (7 - x % 8) = v.getLsbD p := by
  have hb : x / 8 < byteWidth s.w.toNat := by unfold byteWidth; omega
  obtain ⟨u, hu, hpack⟩ := h.bpl_packed he y hy p hp (x / 8) hb
  obtain ⟨i, hi, hbit⟩ := packByte_pixel_bit hpack (j := 7 - x % 8) (by omega)
    (by rwa [column_of_bit])
  rw [column_of_bit, hv] at hi
  cases hi
  exact ⟨u, hu, hbit⟩

/-- The planes below `k` give back the index's low `k` bits. -/
theorem Inv.unpackIndex_eq {x y k : Nat} {v : PaletteIndex} (hx : x < s.w.toNat)
    (hy : y < s.h.toNat) (hv : Memory.read s.idx (idxAddr s x y) = some v) (hk : k ≤ s.np.toNat) :
    unpackIndex s x y k = some (v.toNat % 2 ^ k) := by
  induction k with
  | zero => rw [pow_zero, Nat.mod_one]; rfl
  | succ k ih =>
    obtain ⟨u, hu, hbit⟩ := h.encoded_pixel_bit he hx hy hk hv
    have hlow := ih (Nat.le_of_succ_le hk)
    simp only [unpackIndex, hlow, hu, hbit]
    rw [Nat.mod_pow_succ, ← Nat.toNat_testBit, Nat.mul_comm (2 ^ k), ← Nat.shiftLeft_eq]
    rfl

end Encoded

/-- Settles O28: the padding bits are those of the columns at or past the width. -/
theorem paddingBitsAreZero : Obligations.PaddingBitsAreZero := by
  intro s h he
  have hw := h.w_pos_of_encoded he
  have hbw : byteWidth s.w.toNat = (s.w.toNat + 7) / 8 := rfl
  refine ⟨fun y p hy hp => ?_, fun hmod => by omega⟩
  obtain ⟨v, hv, hpack⟩ := h.bpl_packed he y hy p hp (byteWidth s.w.toNat - 1) (by omega)
  exact ⟨v, hv, fun j hj => packByte_padding_bit hpack (by omega) (by omega)⟩

/-- Settles O31: an index has no more than `NP` bits, so its planes give it back whole. -/
theorem bitplaneBufferGivesBackTheRaster : Obligations.BitplaneBufferGivesBackTheRaster := by
  intro s h he
  obtain ⟨hplanes, -⟩ := h.np_encoded he
  refine ⟨fun x y hx hy => ?_, fun x y p hw hx hy hp => ?_⟩
  · have hk : idxAddr s x y < s.n.toNat := by
      rw [h.raster_full (.inr he)]
      exact idxAddr_lt_area hx hy
    obtain ⟨v, hv, hlt, -⟩ := planesSufficeForEveryIndex s _ h hplanes _ hk
    refine ⟨v, hv, ?_⟩
    rw [h.unpackIndex_eq he hx hy hv le_rfl, Nat.mod_eq_of_lt hlt]
  · obtain ⟨v, hv, hpack⟩ := h.bpl_packed he y hy p hp (x / 8) (by omega)
    refine ⟨v, hv, packByte_padding_bit hpack (by omega) ?_⟩
    rwa [column_of_bit]

end Sys2Proof.Machine
end

section
/-! What the reads answer: RDPAL, RDIDX, RDBPL, RDSTAT and RDFINFO (spec/42_readout_and_artifacts.md R140-R152). -/

namespace Sys2Proof.Machine

variable {s : State}

/-! ### RDSTAT and RDFINFO -/

/-- Settles O37, by RDFINFO's inversion lemma. -/
theorem rdfinfoReturnsTheFaultInformation : Obligations.RdfinfoReturnsTheFaultInformation :=
  ⟨rfl, fun _ => exec_rdfinfo_eq_next.mpr rfl⟩

/-- The status word as its fields, the most significant first (R150). -/
theorem statusWord_eq_append (s : State) : statusWord s =
    0#13 ++ (s.np ++ 0#3 ++ s.pcount ++ s.fcode.code ++ s.phase.code) :=
  BitVec.setWidth_eq_append (by decide)

/-- Settles O35: each field stands in the status word below the fields before it. -/
theorem rdstatReturnsTheStatusWord : Obligations.RdstatReturnsTheStatusWord := by
  refine ⟨rfl, fun s => ⟨statusWord s, exec_rdstat_eq_next.mpr rfl, ?_⟩⟩
  rw [statusWord_eq_append]
  -- The rules read the width of each part off the sum in its type, so the sums must stay as they are.
  simp [-Nat.reduceAdd, BitVec.extractLsb'_append_eq_of_le, BitVec.extractLsb'_append_eq_of_add_le]

/-! ### RDPAL -/

theorem paddr_eq_ofNat (i : PaletteIndex) : paddr i = BitVec.ofNat 16 (0x180 + 2 * i.toNat) := by
  rw [paddr, Nat.mul_comm]

theorem palWord_eq_append (c : Color) : palWord c = 0#4 ++ c :=
  BitVec.setWidth_eq_append (by decide)

/-- The phases without a complete image are neither FAULT nor accepted by RDPAL and RDIDX (R140, R145). -/
theorem phase_rejected_of_incomplete (hp : s.phase = .idle ∨ s.phase = .build) :
    s.phase ≠ .fault ∧ s.phase ∉ [.ready, .encoded] := by
  obtain hp | hp := hp <;> simp [hp]

theorem phase_mem_of_complete (hp : s.phase = .ready ∨ s.phase = .encoded) :
    s.phase ∈ [.ready, .encoded] := by simpa using hp

/-- RDPAL of a live entry answers (R140). -/
theorem exec_rdpal_of_live {i : PaletteIndex} (hp : s.phase = .ready ∨ s.phase = .encoded)
    (hi : i.toNat < s.pcount.toNat) :
    exec (.rdpal i) s = .next (respond (paletteResponse s i) s) :=
  exec_rdpal_eq_next.mpr (.inr (.inr (.inr
    ⟨phase_mem_of_complete hp, decide_eq_true hi, rfl⟩)))

/-- Settles O32: the cases of RDPAL's inversion lemma. -/
theorem rdpalReturnsAddressAndPaletteWord : Obligations.RdpalReturnsAddressAndPaletteWord := by
  intro s i
  refine ⟨rfl, fun hf => ?_, fun hp => ?_, fun hp hi => ?_, fun hp hi => ?_⟩
  · exact exec_rdpal_eq_next.mpr (.inl ⟨hf, rfl⟩)
  · obtain ⟨hl, hrejected⟩ := phase_rejected_of_incomplete hp
    exact exec_rdpal_eq_next.mpr (.inr (.inl ⟨hl, hrejected, rfl⟩))
  · have hdead : isLiveIndex s i = false := decide_eq_false (Nat.not_lt.mpr hi)
    exact exec_rdpal_eq_next.mpr (.inr (.inr (.inl ⟨phase_mem_of_complete hp, hdead, rfl⟩)))
  · rw [exec_rdpal_of_live hp hi, paletteResponse, paddr_eq_ofNat, palWord_eq_append]
    rfl

/-! ### RDIDX -/

theorem inRaster_eq_true {x y : BitVec 16} :
    inRaster s x y = true ↔ x.toNat < s.w.toNat ∧ y.toNat < s.h.toNat := by
  simp [inRaster]

theorem inRaster_eq_false {x y : BitVec 16} :
    inRaster s x y = false ↔ s.w.toNat ≤ x.toNat ∨ s.h.toNat ≤ y.toNat := by
  rw [Bool.eq_false_iff, Ne, inRaster_eq_true, not_and_or, Nat.not_lt, Nat.not_lt]

/-- Settles O33: the cases of RDIDX's inversion lemma; under the invariant the cell of every pixel holds a live
index. -/
theorem rdidxReturnsTheIndexCell : Obligations.RdidxReturnsTheIndexCell := by
  intro s x y
  refine ⟨rfl, fun hf => ?_, fun hp => ?_, fun hp hout => ?_, fun h hp hx hy => ?_⟩
  · exact exec_rdidx_eq_next.mpr (.inl ⟨hf, rfl⟩)
  · obtain ⟨hl, hrejected⟩ := phase_rejected_of_incomplete hp
    exact exec_rdidx_eq_next.mpr (.inr (.inl ⟨hl, hrejected, rfl⟩))
  · exact exec_rdidx_eq_next.mpr
      (.inr (.inr (.inl ⟨phase_mem_of_complete hp, inRaster_eq_false.mpr hout, rfl⟩)))
  · have haccepted : idxAddr s x.toNat y.toNat < s.n.toNat :=
      (idxAddr_lt_area hx hy).trans_eq (h.raster_full hp).symm
    obtain ⟨v, hread, hlive⟩ := h.exists_readIdx haccepted
    obtain ⟨-, hv⟩ := readIdx_eq_ok.mp hread
    exact ⟨v, hv, hlive, exec_rdidx_eq_next.mpr (.inr (.inr (.inr
      ⟨phase_mem_of_complete hp, inRaster_eq_true.mpr ⟨hx, hy⟩, v, hread, rfl⟩)))⟩

/-! ### RDBPL -/

/-- RDBPL of an offset in the buffer of an encoded image answers the byte there (R147). -/
theorem Inv.exec_rdbpl (h : Inv s) (he : s.phase = .encoded) {off : Word32} {v : Byte}
    (ho : off.toNat < bplSize s) (hv : Memory.read s.bpl off.toNat = some v) :
    exec (.rdbpl off) s = .next (respond (v.setWidth 32) s) := by
  have hread : readBpl s off.toNat = .ok v :=
    readBpl_eq_ok.mpr ⟨ho.trans_le (h.bplSize_le_bplCap he), hv⟩
  exact exec_rdbpl_eq_next.mpr (.inr (.inr (.inr ⟨he, decide_eq_true ho, v, hread, rfl⟩)))

/-- Settles O34: the cases of RDBPL's inversion lemma; under the invariant the byte of every position is its packed
byte, and every offset of the buffer is that of a position. -/
theorem rdbplReturnsTheBufferByte : Obligations.RdbplReturnsTheBufferByte := by
  intro s off
  refine ⟨rfl, fun hf => ?_, fun hl he => ?_, fun he hout => ?_, fun h he ho => ?_⟩
  · exact exec_rdbpl_eq_next.mpr (.inl ⟨hf, rfl⟩)
  · exact exec_rdbpl_eq_next.mpr (.inr (.inl ⟨hl, he, rfl⟩))
  · have hoff : inBuffer s off = false := decide_eq_false (Nat.not_lt.mpr hout)
    exact exec_rdbpl_eq_next.mpr (.inr (.inr (.inl ⟨he, hoff, rfl⟩)))
  · obtain ⟨hy, hp, hb, heq⟩ := bplOffset_of_offset ho
    obtain ⟨v, hv, hpack⟩ := h.bpl_packed he _ hy _ hp _ hb
    have hread : Memory.read s.bpl off.toNat = some v := heq ▸ hv
    exact ⟨v, hread, hpack, h.exec_rdbpl he ho hread⟩

end Sys2Proof.Machine
end

section
/-! HEX is the natural lowercase hexadecimal representation (spec/42_readout_and_artifacts.md R161). -/

namespace Sys2Proof.Machine

/-! ### One digit -/

/-- The value of a digit's character is the digit, whether it is one of `0`-`9` or of `a`-`f`. -/
theorem charValue_hexDigit : ∀ d : BitVec 4,
    (if (hexDigit d).toNat < 0x3A then (hexDigit d).toNat - 0x30 else (hexDigit d).toNat - 0x57) =
      d.toNat := by
  decide

theorem hexDigit_range : ∀ d : BitVec 4,
    (0x30 ≤ (hexDigit d).toNat ∧ (hexDigit d).toNat ≤ 0x39) ∨
      (0x61 ≤ (hexDigit d).toNat ∧ (hexDigit d).toNat ≤ 0x66) := by
  decide

theorem eq_zero_of_hexDigit_eq : ∀ d : BitVec 4, hexDigit d = 0x30 → d = 0 := by decide

/-! ### The digits -/

/-- The value of a list of hexadecimal digits, the most significant first. -/
def digitsToNat (ds : List (BitVec 4)) : Nat := ds.foldl (fun acc d => acc * 16 + d.toNat) 0

theorem digitsToNat_nibbles (v : BitVec 16) : digitsToNat (nibbles v) = v.toNat := by
  simp only [digitsToNat, nibbles, List.foldl, BitVec.extractLsb'_toNat, Nat.shiftRight_eq_div_pow]
  omega

theorem digitsToNat_dropWhile_zero (ds : List (BitVec 4)) :
    digitsToNat (ds.dropWhile (· == 0)) = digitsToNat ds := by
  induction ds with
  | nil => rfl
  | cons d ds ih =>
    by_cases hd : d = 0
    · subst hd
      exact ih
    · rw [List.dropWhile_cons_of_neg (by simpa using hd)]

/-- HEX spells the digits of the value without leading zeros, and a single zero for 0 (R161). -/
theorem hex_eq_map_hexDigit (v : BitVec 16) : ∃ ds, hex v = ds.map hexDigit ∧
    digitsToNat ds = v.toNat ∧ ds ≠ [] ∧ (ds.head? = some 0 → ds = [0]) := by
  have hvalue := (digitsToNat_dropWhile_zero (nibbles v)).trans (digitsToNat_nibbles v)
  have hhead := List.head?_dropWhile_not (· == 0) (nibbles v)
  cases hds : (nibbles v).dropWhile (· == 0) with
  | nil =>
    rw [hds] at hvalue
    exact ⟨[0], by simp only [hex, hds, List.map], hvalue, nofun, fun _ => rfl⟩
  | cons d ds =>
    rw [hds] at hvalue hhead
    have hd : d ≠ 0 := by simpa using hhead
    exact ⟨d :: ds, by simp only [hex, hds], hvalue, nofun, fun hz => absurd (Option.some.inj hz) hd⟩

/-- Settles O55: what holds of each digit's character, and of the digits without leading zeros. -/
theorem hexIsNaturalLowercase : Obligations.HexIsNaturalLowercase := by
  intro v
  obtain ⟨ds, hhex, hvalue, hne, hhead⟩ := hex_eq_map_hexDigit v
  rw [hhex]
  refine ⟨?_, fun c hc => ?_, by simpa using hne, fun hz => ?_⟩
  · rw [List.foldl_map]
    simp only [charValue_hexDigit]
    exact hvalue
  · obtain ⟨d, -, rfl⟩ := List.mem_map.mp hc
    exact hexDigit_range d
  · rw [List.head?_map, Option.map_eq_some_iff] at hz
    obtain ⟨d, hd, hchar⟩ := hz
    rw [hhead (eq_zero_of_hexDigit_eq d hchar ▸ hd)]
    rfl

end Sys2Proof.Machine
end

section
/-! The output artifacts are what the reads answer, and they exist in ENCODED only
(spec/42_readout_and_artifacts.md R160, R162-R165). -/

namespace Sys2Proof.Machine

variable {s : State}

/-! ### The palette script -/

/-- The lines of the palette script, in palette-index order (R162). -/
def scriptLines (s : State) : List (List Byte) :=
  (List.range s.pcount.toNat).map fun i => scriptLine (paletteResponse s (BitVec.ofNat 4 i))

theorem paletteScript_eq_flatten (s : State) : paletteScript s = (scriptLines s).flatten :=
  List.flatMap_def ..

theorem scriptLines_length (s : State) : (scriptLines s).length = s.pcount.toNat := by
  simp [scriptLines]

theorem scriptLines_getElem? {i : PaletteIndex} (hi : i.toNat < s.pcount.toNat) :
    (scriptLines s)[i.toNat]? = some (scriptLine (paletteResponse s i)) := by
  rw [scriptLines, List.getElem?_map, List.getElem?_range hi, Option.map_some, BitVec.ofNat_toNat,
    BitVec.setWidth_eq]

/-- A line spells the two halves of the response: the entry's address and its palette word (R160). -/
theorem scriptLine_paletteResponse (s : State) (i : PaletteIndex) :
    scriptLine (paletteResponse s i) = [0x09, 0x64, 0x63, 0x2E, 0x77, 0x20, 0x24] ++ hex (paddr i) ++
      [0x2C, 0x24] ++ hex (palWord (palEntry s i)) ++ [0x0A] := by
  rw [scriptLine, paletteResponse, extractLsb'_append_high, extractLsb'_append_low]

/-- Settles O56: a line per live entry, each from the answer of RDPAL. -/
theorem paletteScriptComesFromTheReads : Obligations.PaletteScriptComesFromTheReads := by
  intro s _ hp
  exact ⟨scriptLines s, paletteScript_eq_flatten s, scriptLines_length s, fun i hi =>
    ⟨_, exec_rdpal_of_live hp hi, scriptLines_getElem? hi, scriptLine_paletteResponse s i⟩⟩

/-! ### The bitplane binary -/

theorem bplBytes_succ_eq_some {k : Nat} {bytes : List Byte} : bplBytes s (k + 1) = some bytes ↔
    ∃ front v, bplBytes s k = some front ∧ Memory.read s.bpl k = some v ∧ bytes = front ++ [v] := by
  rw [bplBytes]
  cases bplBytes s k <;> cases Memory.read s.bpl k <;> simp [eq_comm]

/-- The bytes are the first `k` cells of the RAM, in order. -/
theorem bplBytes_eq_some {k : Nat} {bytes : List Byte} (hb : bplBytes s k = some bytes) :
    bytes.length = k ∧ ∀ o < k, bytes[o]? = Memory.read s.bpl o := by
  induction k generalizing bytes with
  | zero =>
    cases hb
    exact ⟨rfl, nofun⟩
  | succ k ih =>
    obtain ⟨front, v, hfront, hv, rfl⟩ := bplBytes_succ_eq_some.mp hb
    obtain ⟨rfl, hcells⟩ := ih hfront
    refine ⟨List.length_append, fun o ho => ?_⟩
    obtain hlt | rfl := Nat.lt_succ_iff_lt_or_eq.mp ho
    · rw [List.getElem?_append_left hlt, hcells o hlt]
    · rw [List.getElem?_concat_length, hv]

theorem bplBytes_isSome {k : Nat} (hread : ∀ o < k, ∃ v, Memory.read s.bpl o = some v) :
    ∃ bytes, bplBytes s k = some bytes := by
  induction k with
  | zero => exact ⟨[], rfl⟩
  | succ k ih =>
    obtain ⟨front, hfront⟩ := ih fun o ho => hread o (Nat.lt_succ_of_lt ho)
    obtain ⟨v, hv⟩ := hread k (Nat.lt_succ_self k)
    exact ⟨_, bplBytes_succ_eq_some.mpr ⟨front, v, hfront, hv, rfl⟩⟩

/-- An encoded image has a bitplane binary (R127, R164). -/
theorem Inv.exists_bitplaneBinary (h : Inv s) (he : s.phase = .encoded) :
    ∃ bytes, bitplaneBinary s = some bytes :=
  bplBytes_isSome fun _ ho => by
    obtain ⟨v, hread⟩ := h.exists_readBpl he ho
    exact ⟨v, (readBpl_eq_ok.mp hread).2⟩

/-- Settles O57: the binary's bytes are the cells of the buffer, which RDBPL answers. -/
theorem bitplaneBinaryComesFromTheReads : Obligations.BitplaneBinaryComesFromTheReads := by
  intro s h he
  obtain ⟨bytes, hbytes⟩ := h.exists_bitplaneBinary he
  obtain ⟨hlength, hcells⟩ := bplBytes_eq_some hbytes
  refine ⟨bytes, hbytes, hlength, fun o ho => ?_⟩
  have hsize : o.toNat < bplSize s := ho.trans_eq hlength
  have hbyte : bytes[o.toNat]? = some bytes[o.toNat] := List.getElem?_eq_getElem ho
  exact ⟨bytes[o.toNat], hbyte, h.exec_rdbpl he hsize ((hcells _ hsize).symm.trans hbyte)⟩

/-! ### Both artifacts -/

/-- Settles O58: outside ENCODED there are none by definition, and in ENCODED the binary exists. -/
theorem artifactsExistExactlyInEncoded : Obligations.ArtifactsExistExactlyInEncoded := by
  intro s h
  by_cases he : s.phase = .encoded
  · obtain ⟨bytes, hbytes⟩ := h.exists_bitplaneBinary he
    simp [artifacts, he, hbytes]
  · simp [artifacts, he]

end Sys2Proof.Machine
end

section
/-! How a command word is performed, rejected or ignored, and the software reset (spec/43_control.md R170-R174). -/

namespace Sys2Proof.Machine

variable {s : State} {word : CommandWord} {rest : List PortEvent} {i : Instr}

/-! ### Software reset -/

/-- The status word is made of registers that SRST clears (R150, R174). -/
@[simp] theorem statusWord_resetRegisters (s : State) : statusWord (resetRegisters s) = 0 := by
  simp [statusWord, FaultCode.code, Phase.code]

/-- Settles O39: SRST answers the register reset, whose status word is 0. -/
theorem srstClearsEveryRegister : Obligations.SrstClearsEveryRegister :=
  ⟨rfl, fun s => ⟨resetRegisters s, exec_srst_eq_next.mpr rfl, rfl, statusWord_resetRegisters s⟩⟩

/-! ### A word from the port (R170) -/

theorem step_command (hport : s.port = .command word :: rest) :
    step s = performWord word { s with port := rest } := by
  simp [step, takeEvent_cons hport]

theorem performWord_of_ok (hd : decodeWord word = .ok i) : performWord word s = exec i s := by
  simp [performWord, hd]

theorem performWord_of_error {r : RejectReason} (hd : decodeWord word = .error r) :
    performWord word s = rejectWord (opField word) s := by
  simp [performWord, hd]

/-- Settles O6: the step performs the word it takes, and performing a word is running the command it spells. -/
theorem stepRunsTheDecodedCommand : Obligations.StepRunsTheDecodedCommand :=
  fun _ _ _ _ hport hd => (step_command hport).trans (performWord_of_ok hd)

/-- A word that is presented as a number of 64 bits loses none of them. -/
theorem withFetchWord_toNat (s : State) (word : CommandWord) :
    s.withFetchWord 64 word.toNat = presentWord word s := by
  simp [State.withFetchWord, Nat.mod_eq_of_lt word.isLt]

/-- Settles O7: the presented word is the oldest event, it decodes to the command it encodes, and without it the port
is what it was. -/
theorem presentedCommandIsPerformedNext : Obligations.PresentedCommandIsPerformedNext := by
  intro s i
  rw [withFetchWord_toNat]
  exact stepRunsTheDecodedCommand _ _ _ _ (presentWord_port (encode i) s) (decodeWord_encode i)

/-! ### Illegal words and the FAULT phase (R171, R173) -/

theorem exists_decodeWord_eq_error (hillegal : legalWord word = false) :
    ∃ r, decodeWord word = .error r := by
  cases hd : decodeWord word with
  | ok i => exact absurd (legalWord_eq_true.mpr ⟨i, hd⟩) (Bool.eq_false_iff.mp hillegal)
  | error r => exact ⟨r, rfl⟩

/-- Settles O9: the decoder rejects a word that is not legal, and outside FAULT a rejected word raises
IllegalCommand. -/
theorem illegalWordRaisesIllegalCommand : Obligations.IllegalWordRaisesIllegalCommand := by
  intro s word rest hport hlive hillegal
  obtain ⟨r, hd⟩ := exists_decodeWord_eq_error hillegal
  rw [step_command hport, performWord_of_error hd]
  exact rejectWord_eq_next.mpr (.inr ⟨hlive, rfl⟩)

/-- The FAULT-phase filter covers every command but three (R173). -/
theorem ignoredInFault_of_ne (hsrst : i ≠ .srst) (hrdstat : i ≠ .rdstat) (hrdfinfo : i ≠ .rdfinfo) :
    ignoredInFault i = true := by
  cases i with
  | srst => exact absurd rfl hsrst
  | rdstat => exact absurd rfl hrdstat
  | rdfinfo => exact absurd rfl hrdfinfo
  | begin | pixel | encode | rdpal | rdidx | rdbpl => rfl

/-- Settles O10: the word spells a command that the filter covers, or it spells none, and FAULT ignores it too. -/
theorem faultPhaseIgnoresEveryOtherCommand : Obligations.FaultPhaseIgnoresEveryOtherCommand := by
  intro s word rest hport hfault hsrst hrdstat hrdfinfo
  rw [step_command hport]
  cases hd : decodeWord word with
  | ok i =>
    rw [hd] at hsrst hrdstat hrdfinfo
    have kind : ignoredInFault i = true :=
      ignoredInFault_of_ne (hsrst <| congrArg _ ·) (hrdstat <| congrArg _ ·) (hrdfinfo <| congrArg _ ·)
    exact (performWord_of_ok hd).trans (exec_ignored hfault kind)
  | error r => exact (performWord_of_error hd).trans (rejectWord_eq_next.mpr (.inl ⟨hfault, rfl⟩))

end Sys2Proof.Machine
end

section
/-! How FAULT is entered and left (spec/60_exceptions.md R181-R185). -/

namespace Sys2Proof.Machine

variable {s t : State} {i : Instr}

/-! ### Entering FAULT (R183) -/

/-- An opened image raises no fault (R104). -/
theorem openImage_phase_ne_fault (w h : BitVec 16) (s : State) : (openImage w h s).phase ≠ .fault := by
  rw [openImage_phase]
  split <;> exact nofun

/-- A filled buffer raises no fault (R126). -/
theorem encodeImage_phase_ne_fault {np : Nat} (he : encodeImage np s = .ok t) : t.phase ≠ .fault := by
  obtain ⟨heq, -⟩ := encodeImage_eq_ok he
  rw [heq]
  exact nofun

/-- A command that enters FAULT does so by raising a fault: no other effect leaves the phase FAULT behind. -/
theorem exists_raiseFault_of_exec (hx : exec i s = .next t) (hl : s.phase ≠ .fault)
    (hf : t.phase = .fault) : ∃ code info, code ≠ .none ∧ t = raiseFault code info s := by
  cases effect_of_exec hx with
  | ignored faulted => exact absurd faulted hl
  | raised _ named => exact ⟨_, _, named, rfl⟩
  | responded => exact absurd hf hl
  | cleared => cases hf
  | opened => exact absurd hf (openImage_phase_ne_fault _ _ s)
  | recorded building palette stored =>
    exact absurd hf (palette.recorded_phase_ne_fault building stored)
  | packed _ _ filled => exact absurd hf (encodeImage_phase_ne_fault filled)

/-- Settles O42, by the four kinds of step: only a command and an illegal word enter FAULT, and each raises a fault
on the state without the event it took. -/
theorem faultEntryWritesOnlyTheFaultRecord : Obligations.FaultEntryWritesOnlyTheFaultRecord := by
  intro s t hs hl hf
  obtain ⟨-, hx⟩ | ⟨rest, -, hx⟩ | ⟨word, rest, i, hport, -, hx⟩ | ⟨word, rest, r, hport, -, hx⟩ :=
    step_cases s
  all_goals rw [hx] at hs
  · cases hs
    exact absurd hf hl
  · cases hs
    cases hf
  · obtain ⟨code, info, named, rfl⟩ := exists_raiseFault_of_exec hs hl hf
    exact ⟨named, by rw [hport]; rfl⟩
  · obtain ⟨hfault, -⟩ | ⟨-, rfl⟩ := rejectWord_eq_next.mp hs
    · exact absurd hfault hl
    · exact ⟨nofun, by rw [hport]; rfl⟩

/-! ### The record of each fault (R181, R182) -/

theorem imageFits_eq_false {cfg : Config} {w h : BitVec 16} :
    imageFits cfg w h = false ↔ cfg.maxW < w.toNat ∨ cfg.maxH < h.toNat := by
  rw [Bool.eq_false_iff, Ne, imageFits_eq_true, not_and_or, Nat.not_le, Nat.not_le]

theorem isLiveIndex_eq_false {k : PaletteIndex} :
    isLiveIndex s k = false ↔ s.pcount.toNat ≤ k.toNat := by
  simp [isLiveIndex]

theorem inBuffer_eq_false {off : Word32} : inBuffer s off = false ↔ bplSize s ≤ off.toNat := by
  simp [inBuffer]

/-- Settles O43, by the cases of each command's inversion lemma: those that raise a fault carry its cause, and the
others do not enter FAULT. -/
theorem faultRecordNamesCauseAndPlace : Obligations.FaultRecordNamesCauseAndPlace := by
  intro s t i hx hl hf
  cases i with
  | begin w h =>
    obtain ⟨hfault, -⟩ | ⟨-, hbig, rfl⟩ | ⟨-, -, rfl⟩ := exec_begin_eq_next.mp hx
    · exact absurd hfault hl
    · exact ⟨rfl, w, h, rfl, imageFits_eq_false.mp hbig⟩
    · exact absurd hf (openImage_phase_ne_fault w h s)
  | pixel r g b a =>
    obtain ⟨hfault, -⟩ | ⟨-, hphase, rfl⟩ | ⟨hb, habsent, hfull, rfl⟩ | ⟨hb, habsent, hroom, hr⟩ |
      ⟨hb, k, hfound, hr⟩ := exec_pixel_eq_next.mp hx
    · exact absurd hfault hl
    · exact ⟨rfl, hphase⟩
    · exact ⟨⟨r, g, b, a, rfl, lookup_eq_none.mp habsent⟩, hb, hfull, rfl⟩
    · exact absurd hf ((PaletteStep.appended habsent hroom).recorded_phase_ne_fault hb hr)
    · exact absurd hf ((PaletteStep.known hfound).recorded_phase_ne_fault hb hr)
  | encode =>
    obtain ⟨hfault, -⟩ | ⟨-, hphase, rfl⟩ | ⟨hr, code, hp, rfl⟩ | ⟨-, np, -, he⟩ :=
      exec_encode_eq_next.mp hx
    · exact absurd hfault hl
    · exact ⟨rfl, hphase⟩
    · obtain ⟨rfl, hcount⟩ | ⟨rfl, hcount, hpolicy⟩ := planes_eq_error hp
      · exact ⟨rfl, hr, BitVec.eq_of_toNat_eq hcount, rfl⟩
      · exact ⟨rfl, hr, BitVec.eq_of_toNat_eq hcount, hpolicy, rfl⟩
    · exact absurd hf (encodeImage_phase_ne_fault he)
  | rdpal k =>
    obtain ⟨hfault, -⟩ | ⟨-, hphase, rfl⟩ | ⟨-, hdead, rfl⟩ | ⟨-, -, rfl⟩ :=
      exec_rdpal_eq_next.mp hx
    · exact absurd hfault hl
    · exact ⟨rfl, by simpa using hphase⟩
    · exact ⟨rfl, isLiveIndex_eq_false.mp hdead⟩
    · exact absurd hf hl
  | rdidx x y =>
    obtain ⟨hfault, -⟩ | ⟨-, hphase, rfl⟩ | ⟨-, hout, rfl⟩ | ⟨-, -, v, -, rfl⟩ :=
      exec_rdidx_eq_next.mp hx
    · exact absurd hfault hl
    · exact ⟨rfl, by simpa using hphase⟩
    · exact ⟨rfl, inRaster_eq_false.mp hout⟩
    · exact absurd hf hl
  | rdbpl off =>
    obtain ⟨hfault, -⟩ | ⟨-, hphase, rfl⟩ | ⟨-, hout, rfl⟩ | ⟨-, -, v, -, rfl⟩ :=
      exec_rdbpl_eq_next.mp hx
    · exact absurd hfault hl
    · exact ⟨rfl, hphase⟩
    · exact ⟨rfl, inBuffer_eq_false.mp hout⟩
    · exact absurd hf hl
  | rdstat =>
    obtain rfl := exec_rdstat_eq_next.mp hx
    exact absurd hf hl
  | rdfinfo =>
    obtain rfl := exec_rdfinfo_eq_next.mp hx
    exact absurd hf hl
  | srst =>
    obtain rfl := exec_srst_eq_next.mp hx
    cases hf

/-! ### Leaving FAULT (R185) -/

/-- In FAULT a command keeps the phase and the fault record, or it is SRST. -/
theorem exec_of_fault (hx : exec i s = .next t) (hf : s.phase = .fault) :
    (t.phase = .fault ∧ t.fcode = s.fcode ∧ t.finfo = s.finfo) ∨
      (i = .srst ∧ t = resetRegisters s) := by
  cases effect_of_exec hx with
  | ignored => exact .inl ⟨hf, rfl, rfl⟩
  | raised live => exact absurd hf live
  | responded => exact .inl ⟨hf, rfl, rfl⟩
  | cleared => exact .inr ⟨rfl, rfl⟩
  | opened live => exact absurd hf live
  | recorded building => simp [hf] at building
  | packed ready => simp [hf] at ready

/-- Settles O44, by the four kinds of step: the register reset is the only one that writes the fault record of a
state in FAULT. -/
theorem faultIsLeftOnlyByReset : Obligations.FaultIsLeftOnlyByReset := by
  intro s t hs hf
  obtain ⟨-, hx⟩ | ⟨rest, hport, hx⟩ | ⟨word, rest, i, hport, hd, hx⟩ | ⟨word, rest, r, -, -, hx⟩ :=
    step_cases s
  all_goals rw [hx] at hs
  · cases hs
    exact .inl ⟨hf, rfl, rfl⟩
  · cases hs
    exact .inr ⟨.inl (by rw [hport]; rfl), rfl, rfl, rfl, rfl, rfl, rfl⟩
  · obtain hkept | ⟨rfl, rfl⟩ := exec_of_fault hs hf
    · exact .inl hkept
    · exact .inr ⟨.inr ⟨word, by rw [hport]; rfl, hd⟩, rfl, rfl, rfl, rfl, rfl, rfl⟩
  · obtain ⟨-, rfl⟩ | ⟨hl, -⟩ := rejectWord_eq_next.mp hs
    · exact .inl ⟨hf, rfl, rfl⟩
    · exact absurd hf hl

end Sys2Proof.Machine
end

section
/-! The reset input, the state after a reset, and a whole image from reset to ENCODED
(spec/70_reset_and_hazards.md R200-R203). -/

namespace Sys2Proof.Machine

variable {s t : State} {w h : BitVec 16} {done : List Color}

/-! ### Reset (R200-R202) -/

/-- Settles O41: SRST answers the register reset, which brings the invariant about. -/
theorem srstEstablishesTheInvariant : Obligations.SrstEstablishesTheInvariant :=
  fun s hpower => ⟨resetRegisters s, exec_srst_eq_next.mpr rfl, inv_resetRegisters hpower, rfl⟩

theorem step_reset {rest : List PortEvent} (hport : s.port = .reset :: rest) :
    step s = resetInput { s with port := rest } := by
  simp [step, takeEvent_cons hport]

/-- Settles O11: the step takes the reset input, and that input and SRST are the same register reset. -/
theorem resetInputHasTheEffectOfSrst : Obligations.ResetInputHasTheEffectOfSrst :=
  fun _ _ hport => (step_reset hport).trans (exec_srst_eq_next.mpr rfl).symm

/-- A register reset clears every palette entry (R201). -/
theorem palEntry_resetRegisters (s : State) (i : PaletteIndex) : palEntry (resetRegisters s) i = 0 :=
  Vector.getElem_replicate i.isLt

/-- Settles O40: the state after reset is a register reset of itself, and its RAMs list no cell. -/
theorem resetStateIsClear : Obligations.ResetStateIsClear :=
  ⟨rfl, rfl, rfl, rfl, rfl, rfl, rfl, rfl, rfl, palEntry_resetRegisters State.reset,
    fun _ => rfl, fun _ => rfl⟩

/-! ### A whole image (R203) -/

theorem runCommands_cfg {program : List Instr} (hrun : runCommands program s = .next t) :
    t.cfg = s.cfg := by
  induction program generalizing s with
  | nil =>
    cases hrun
    rfl
  | cons i rest ih =>
    rw [runCommands] at hrun
    split at hrun
    · next u hx => exact (ih hrun).trans (exec_port_cfg hx).2
    · cases hrun
    · cases hrun

/-- After SRST a BEGIN that fits opens its image (R104, R174). -/
theorem exec_begin_after_reset (hw : w.toNat ≤ s.cfg.maxW) (hh : h.toNat ≤ s.cfg.maxH) :
    exec (.begin w h) (resetRegisters s) = .next (openImage w h (resetRegisters s)) :=
  exec_begin_eq_next.mpr (.inr (.inr ⟨nofun, imageFits_eq_true.mpr ⟨hw, hh⟩, rfl⟩))

/-- The image opened after SRST is fresh: no pixel accepted, the first one expected (R104, R202). -/
theorem PowerOn.built_opened (hpower : PowerOn s) (hw : w.toNat ≤ s.cfg.maxW)
    (hh : h.toNat ≤ s.cfg.maxH) (hne : w.toNat * h.toNat ≠ 0) :
    Built [] (openImage w h (resetRegisters s)) :=
  have hinv : Inv (openImage w h (resetRegisters s)) :=
    inv_openImage (inv_resetRegisters hpower) nofun (imageFits_eq_true.mpr ⟨hw, hh⟩)
  hinv.built_nil (if_neg hne) rfl

/-- ENCODE of a full raster succeeds, unless the policy faults its single color (R121, R126). -/
theorem Built.exec_encode (hb : Built done s) (hfull : done.length = area s) (hne : done ≠ [])
    (hone : (firstOccurrences done).length = 1 → s.cfg.policy = .onePlane) :
    ∃ t np, exec .encode s = .next t ∧ encodeImage np s = .ok t := by
  have hr : s.phase = .ready := hb.phase.trans (if_pos hfull)
  have hcount : s.pcount.toNat ≠ 0 := by
    rw [hb.pcount_eq]
    cases done with
    | nil => exact absurd rfl hne
    | cons => exact Nat.succ_ne_zero _
  have hpolicy : ¬(s.pcount.toNat = 1 ∧ s.cfg.policy = .fault) := by
    rintro ⟨hsingle, hfault⟩
    cases hfault.symm.trans (hone (hb.pcount_eq.symm.trans hsingle))
  obtain ⟨np, hp⟩ := planes_isOk hcount hpolicy
  obtain ⟨t, hx, ht⟩ := exec_encode_of_planes_ok hb.inv hr hp
  exact ⟨t, np, hx, ht⟩

/-- Pixel number `k` stands at its column and row (R51, R103). -/
theorem idxAddr_pixel (s : State) (k : Nat) : idxAddr s (pixelColumn s k) (pixelRow s k) = k :=
  Nat.div_add_mod' k s.w.toNat

/-- In ENCODED the buffer gives back the index of pixel number `k` (R129). -/
theorem Inv.unpackIndex_pixel (hs : Inv s) (he : s.phase = .encoded) {k : Nat} {v : PaletteIndex}
    (hk : k < area s) (hv : Memory.read s.idx k = some v) :
    unpackIndex s (pixelColumn s k) (pixelRow s k) s.np.toNat = some v.toNat := by
  have hcolumn : pixelColumn s k < s.w.toNat := Nat.mod_lt k (hs.w_pos_of_encoded he)
  have hrow : pixelRow s k < s.h.toNat := Nat.div_lt_of_lt_mul hk
  obtain ⟨hraster, -⟩ := bitplaneBufferGivesBackTheRaster s hs he
  obtain ⟨u, hu, hunpack⟩ := hraster _ _ hcolumn hrow
  rw [← idxAddr_pixel s k] at hv
  cases hu.symm.trans hv
  exact hunpack

/-- ENCODE keeps the palette and the raster of a full image, so the buffer gives back the index that names each
pixel's color (R108, R129). -/
theorem Built.encoded_pixels {np : Nat} (hb : Built done s) (hfull : done.length = area s)
    (hx : exec .encode s = .next t) (ht : encodeImage np s = .ok t) :
    t.phase = .encoded ∧ livePal t = firstOccurrences done ∧
      ∀ k c, done[k]? = some c →
        ∃ v, unpackIndex t (pixelColumn t k) (pixelRow t k) t.np.toNat = some v ∧
          (livePal t)[v]? = some c := by
  have hinv : Inv t := inv_exec hb.inv hx
  obtain ⟨heq, -⟩ := encodeImage_eq_ok ht
  have hphase : t.phase = .encoded := by rw [heq]
  have hpal : livePal t = livePal s := by rw [heq]; rfl
  have hidx : t.idx = s.idx := by rw [heq]
  have harea : area t = area s := by rw [heq]; rfl
  refine ⟨hphase, hpal.trans hb.palette, fun k c hk => ?_⟩
  obtain ⟨v, hv, hcolor⟩ := hb.cells k c hk
  rw [← hidx] at hv
  rw [← hpal] at hcolor
  obtain ⟨hlt, -⟩ := List.getElem?_eq_some_iff.mp hk
  rw [hfull, ← harea] at hlt
  exact ⟨v.toNat, hinv.unpackIndex_pixel hphase hlt hv, hcolor⟩

/-- Settles O54: the pixels fill the raster of the opened image, ENCODE finds a plane count for its palette, and the
buffer gives the raster back. -/
theorem wholeImageIsEncodedFaithfully : Obligations.WholeImageIsEncodedFaithfully := by
  intro s w h pixels hpower hw hh hlen hne few hone
  have harea : w.toNat * h.toNat ≠ 0 := fun hz =>
    hne (List.length_eq_zero_iff.mp (hlen.trans hz))
  obtain ⟨u, hrun, hbuilt, hau⟩ := (hpower.built_opened hw hh harea).run_pixels
    ((Nat.zero_add _).trans_le hlen.le) few
  have hfull : (pixels.map pixelColor).length = area u := by
    rw [List.length_map, hlen, hau]
    rfl
  have hcfg : u.cfg = s.cfg := by rw [runCommands_cfg hrun, openImage_cfg, resetRegisters_cfg]
  obtain ⟨t, np, hx, ht⟩ := hbuilt.exec_encode hfull (mt List.map_eq_nil_iff.mp hne)
    (by rwa [hcfg])
  refine ⟨t, ?_, hbuilt.encoded_pixels hfull hx ht⟩
  rw [runCommands_cons (exec_srst_eq_next.mpr rfl), runCommands_cons (exec_begin_after_reset hw hh),
    runCommands_append hrun, runCommands_cons hx]
  rfl

end Sys2Proof.Machine
end
